-- ==== Sys2Proof/Word.lean ====
section
/-! DEFINITION. The widths of the spec's values: bytes (00_scope.md R9 `DATA_WIDTH`), the 16-bit addresses of main memory
and of the register bus (`MEM_ADDR_WIDTH`, `BUS_ADDR_WIDTH`), and the packed command word (30_encoding.md R48). -/

namespace Sys2Proof

/-- An 8-bit datum (00_scope.md R10). -/
abbrev Byte := BitVec 8

/-- A 16-bit address, of main memory or of the register bus (00_scope.md R9). -/
abbrev Addr := BitVec 16

/-- A packed command word, bit 31 the most significant (30_encoding.md R48). -/
abbrev Word := BitVec 32

end Sys2Proof
end

