-- ==== Sys2Proof/Config.lean ====
section
/-! DEFINITION. What is fixed for one machine: the OPEN address parameters, the decided constants (00_scope.md R9), and the
free values the spec leaves to the environment (opaque: nothing in Lean knows their value). -/

namespace Sys2Proof

/-- The three OPEN address parameters (00_scope.md R9, 92_eei_decisions.md D2). State holds one of these, so that every
statement about all states is about every choice of the addresses. -/
structure AddrMap where
  /-- `ADDR_OAMDMA` -/
  oamdma : Addr
  /-- `ADDR_PAD1` -/
  pad1 : Addr
  /-- `ADDR_PAD2` -/
  pad2 : Addr
deriving DecidableEq, Repr

/-- "The three addresses must be pairwise distinct" (00_scope.md R9). -/
abbrev AddrMap.Distinct (p : AddrMap) : Prop :=
  p.oamdma ≠ p.pad1 ∧ p.oamdma ≠ p.pad2 ∧ p.pad1 ≠ p.pad2

/-- The defaults the spec prints in its examples and in the opcode table (00_scope.md R9, 93_implementation_defined.md G1).
PRESUMED (log entry 1). -/
def AddrMap.usual : AddrMap := { oamdma := 0x4014, pad1 := 0x4016, pad2 := 0x4017 }

/-- `PAGE_SIZE` (00_scope.md R9). -/
def Config.pageSize : Nat := 256

/-- `OAM_COST_BASE` (00_scope.md R9, 40_dma_engine.md R65). -/
def Config.oamCostBase : Nat := 513

/-- `CURSOR_MAX` (00_scope.md R9): the cursor value that means exhausted. -/
def Config.cursorMax : Nat := 8

/-- `PAD_EXHAUSTED_VALUE` (00_scope.md R9, the spec's decision D6; log entry 10). -/
def Config.padExhaustedValue : Byte := 0x01

/-- `PAD_CTRL_RESET` (00_scope.md R9, the spec's decision D5; log entry 9). -/
def Config.padCtrlReset : Byte := 0x01

/-- FREE VALUE: the byte the external reader answers to the n-th MemRead at an address the environment has not fixed
(20_memory.md R33: "must assume nothing about the value returned"; U7; log entry 6). -/
opaque Config.memOracle : Nat → Addr → Byte

/-- The eight button inputs, true meaning pressed (10_state.md R19). -/
structure Buttons where
  a : Bool
  b : Bool
  select : Bool
  start : Bool
  up : Bool
  down : Bool
  left : Bool
  right : Bool
deriving DecidableEq, Repr, Inhabited

/-- FREE VALUE: the buttons that the input poller presents at reset (10_state.md R28, U17; log entry 7). -/
opaque Config.btnAtReset : Buttons

end Sys2Proof
end

