-- ==== Sys2Proof/Syntax.lean ====
section
/-! DEFINITION. The operations: the five record formats of 30_encoding.md R47, what an agent may present, and the nine
operations of opcode_table.json (R55), one constructor a row. -/

namespace Sys2Proof

/-- The record formats (30_encoding.md R47): the operands the source gives each call, nothing else. -/
inductive Record where
  /-- `BW`: register-bus write. -/
  | bw (addr : Addr) (data : Byte)
  /-- `BR`: register-bus read. -/
  | br (addr : Addr)
  /-- `AA`: audio cycles, a natural number taken whole (R52). -/
  | aa (cycles : Nat)
  /-- `DR`: drain, a natural number of which bit 0 is used (R53). -/
  | dr (parity : Nat)
  /-- `SB`: button inputs, bit i the new value of `btn[i]` (R54). -/
  | sb (mask : Byte)
deriving DecidableEq, Repr

/-- What an agent presents: a record (R47), or a packed command word (R48). -/
inductive Request where
  | record (r : Record)
  | packed (w : Word)
deriving DecidableEq, Repr

/-- The nine operations (30_encoding.md R55, opcode_table.json). -/
inductive Instr where
  /-- OAMDMA: object-table page copy (40_dma_engine.md R61). -/
  | oamdma (page : Byte)
  /-- PADW: write of the strobe control byte (41_controller.md R72). -/
  | padw (v : Byte)
  /-- BUSW.UNSUP: bus write the block does not claim (42_bus_dispatch.md R85). -/
  | buswUnsup (addr : Addr) (data : Byte)
  /-- PADR: read of the next button bit (41_controller.md R73). -/
  | padr
  /-- PAD2R: read of the secondary controller register (41_controller.md R74). -/
  | pad2r
  /-- BUSR.UNSUP: bus read the block does not claim (42_bus_dispatch.md R86). -/
  | busrUnsup (addr : Addr)
  /-- ADDAUD: add audio-driven cycles (40_dma_engine.md R62). -/
  | addaud (cycles : Nat)
  /-- DRAIN: drain and report stolen cycles (40_dma_engine.md R63). -/
  | drain (parity : Nat)
  /-- SETBTN: the input poller sets the buttons (41_controller.md R75). -/
  | setbtn (mask : Byte)
deriving DecidableEq, Repr

/-- The mnemonic of opcode_table.json. -/
def Instr.mnemonic : Instr → String
  | .oamdma _ => "OAMDMA"
  | .padw _ => "PADW"
  | .buswUnsup _ _ => "BUSW.UNSUP"
  | .padr => "PADR"
  | .pad2r => "PAD2R"
  | .busrUnsup _ => "BUSR.UNSUP"
  | .addaud _ => "ADDAUD"
  | .drain _ => "DRAIN"
  | .setbtn _ => "SETBTN"

end Sys2Proof
end

