-- ==== Sys2Proof/WellFormed.lean ====
section
/-! DEFINITION. Which terms of Instr are operations under a choice of the address parameters (30_encoding.md R55, R60), and
which of them a packed command word can carry (R48). -/

namespace Sys2Proof

/-- An unsupported access names an address that no earlier row of R55 claims; every other operand value is legal
(30_encoding.md R55, R56 (d)). -/
def Instr.wf (p : AddrMap) : Instr → Bool
  | .buswUnsup addr _ => addr != p.oamdma && addr != p.pad1
  | .busrUnsup addr => addr != p.pad1 && addr != p.pad2
  | .oamdma _ => true
  | .padw _ => true
  | .padr => true
  | .pad2r => true
  | .addaud _ => true
  | .drain _ => true
  | .setbtn _ => true

/-- "The word can carry `cycles` and `parity` only below 2^28" (30_encoding.md R48). -/
def Record.packable : Record → Bool
  | .aa cycles => cycles < 2 ^ 28
  | .dr parity => parity < 2 ^ 28
  | .bw _ _ => true
  | .br _ => true
  | .sb _ => true

/-- The operation fits a packed command word (30_encoding.md R48). -/
def Instr.packable : Instr → Bool
  | .addaud cycles => cycles < 2 ^ 28
  | .drain parity => parity < 2 ^ 28
  | .oamdma _ => true
  | .padw _ => true
  | .buswUnsup _ _ => true
  | .padr => true
  | .pad2r => true
  | .busrUnsup _ => true
  | .setbtn _ => true

end Sys2Proof
end

