-- ==== Sys2Proof/Decode.lean ====
section
/-! DEFINITION. Decoding, total on every word: the packed word to a record (30_encoding.md R48), the record to an operation
under the address parameters (R55, 42_bus_dispatch.md R83, R84); then the encoder, from the same tables; then the opcode
table as masks and patterns (opcode_table.json). -/

namespace Sys2Proof

/-- Why a packed word is no operation (30_encoding.md R48, R56 (e)). -/
inductive Reject where
  /-- `cw[31:28]` is 0x0 or 0x6..0xF. -/
  | unassignedOp (op : BitVec 4)
  /-- `BW` with `cw[27:24]` non-zero. -/
  | busWriteZeroField
  /-- `BR` with `cw[27:24]` or `cw[7:0]` non-zero. -/
  | busReadZeroField
  /-- `SB` with `cw[27:8]` non-zero. -/
  | buttonZeroField
deriving DecidableEq, Repr

/-- `cw[31:28]`, the format code. -/
def opField (w : Word) : BitVec 4 := w.extractLsb' 28 4

/-- `cw[27:24]`. -/
def zeroField (w : Word) : BitVec 4 := w.extractLsb' 24 4

/-- `cw[23:8]`. -/
def addrField (w : Word) : Addr := w.extractLsb' 8 16

/-- `cw[7:0]`. -/
def dataField (w : Word) : Byte := w.extractLsb' 0 8

/-- `cw[27:0]`, the operand of `AA` and `DR`. -/
def countField (w : Word) : BitVec 28 := w.extractLsb' 0 28

/-- `cw[27:8]`, zero in `SB`. -/
def buttonZero (w : Word) : BitVec 20 := w.extractLsb' 8 20

/-- The packed command word as a record (30_encoding.md R48). -/
def unpack (w : Word) : Except Reject Record :=
  if opField w = 0x1#4 then
    if zeroField w = 0#4 then .ok (.bw (addrField w) (dataField w)) else .error .busWriteZeroField
  else if opField w = 0x2#4 then
    if zeroField w = 0#4 ∧ dataField w = 0#8 then .ok (.br (addrField w)) else .error .busReadZeroField
  else if opField w = 0x3#4 then .ok (.aa (countField w).toNat)
  else if opField w = 0x4#4 then .ok (.dr (countField w).toNat)
  else if opField w = 0x5#4 then
    if buttonZero w = 0#20 then .ok (.sb (dataField w)) else .error .buttonZeroField
  else .error (.unassignedOp (opField w))

/-- Dispatch of a bus write (42_bus_dispatch.md R83, 30_encoding.md R55 rows 1 to 3). -/
def selectWrite (p : AddrMap) (addr : Addr) (data : Byte) : Instr :=
  if addr = p.oamdma then .oamdma data
  else if addr = p.pad1 then .padw data
  else .buswUnsup addr data

/-- Dispatch of a bus read (42_bus_dispatch.md R84, 30_encoding.md R55 rows 4 to 6). -/
def selectRead (p : AddrMap) (addr : Addr) : Instr :=
  if addr = p.pad1 then .padr
  else if addr = p.pad2 then .pad2r
  else .busrUnsup addr

/-- The operation a record is (30_encoding.md R55). Total: every record is one of the nine. -/
def select (p : AddrMap) : Record → Instr
  | .bw addr data => selectWrite p addr data
  | .br addr => selectRead p addr
  | .aa cycles => .addaud cycles
  | .dr parity => .drain parity
  | .sb mask => .setbtn mask

/-- The decoder of packed words. -/
def decode (p : AddrMap) (w : Word) : Except Reject Instr :=
  match unpack w with
  | .ok r => .ok (select p r)
  | .error e => .error e

/-- The operation a request is, or why it is none. -/
def decodeRequest (p : AddrMap) : Request → Except Reject Instr
  | .record r => .ok (select p r)
  | .packed w => decode p w

/-- A table word as a packed word: the bits above `nbits` are zero. -/
def tableWord (nbits w : Nat) : Word := BitVec.ofNat 32 (w % 2 ^ nbits)

/-- The host's reading of a row of opcode_table.json, at the addresses the table is printed for (log entries 1 and 19). -/
def decodeTableWord (nbits w : Nat) : Option Instr :=
  match decode AddrMap.usual (tableWord nbits w) with
  | .ok i => some i
  | .error _ => none

/-! The encoder. -/

/-- The record of an operation (30_encoding.md R55, read from right to left). -/
def Instr.toRecord (p : AddrMap) : Instr → Record
  | .oamdma page => .bw p.oamdma page
  | .padw v => .bw p.pad1 v
  | .buswUnsup addr data => .bw addr data
  | .padr => .br p.pad1
  | .pad2r => .br p.pad2
  | .busrUnsup addr => .br addr
  | .addaud cycles => .aa cycles
  | .drain parity => .dr parity
  | .setbtn mask => .sb mask

/-- The packed command word of a record (30_encoding.md R48). -/
def pack : Record → Word
  | .bw addr data => 0x1#4 ++ 0x0#4 ++ addr ++ data
  | .br addr => 0x2#4 ++ 0x0#4 ++ addr ++ 0x00#8
  | .aa cycles => 0x3#4 ++ BitVec.ofNat 28 cycles
  | .dr parity => 0x4#4 ++ BitVec.ofNat 28 parity
  | .sb mask => 0x5#4 ++ 0x00000#20 ++ mask

/-- The packed command word of an operation. -/
def encode (p : AddrMap) (i : Instr) : Word := pack (i.toRecord p)

/-! The opcode table as data (opcode_table.json: mnemonic, mask, match; `match_expr` gives the match for any addresses). -/

/-- A row of opcode_table.json. -/
structure TableRow where
  mnemonic : String
  mask : Word
  pattern : Word
deriving DecidableEq, Repr

/-- The nine rows in the table's order of priority (a row is taken only when no earlier row matches). -/
def opcodeTable (p : AddrMap) : List TableRow :=
  [ { mnemonic := "OAMDMA", mask := 0xFFFFFF00#32, pattern := 0x10000000#32 ||| (p.oamdma.setWidth 32 <<< 8) },
    { mnemonic := "PADW", mask := 0xFFFFFF00#32, pattern := 0x10000000#32 ||| (p.pad1.setWidth 32 <<< 8) },
    { mnemonic := "BUSW.UNSUP", mask := 0xFF000000#32, pattern := 0x10000000#32 },
    { mnemonic := "PADR", mask := 0xFFFFFFFF#32, pattern := 0x20000000#32 ||| (p.pad1.setWidth 32 <<< 8) },
    { mnemonic := "PAD2R", mask := 0xFFFFFFFF#32, pattern := 0x20000000#32 ||| (p.pad2.setWidth 32 <<< 8) },
    { mnemonic := "BUSR.UNSUP", mask := 0xFF0000FF#32, pattern := 0x20000000#32 },
    { mnemonic := "ADDAUD", mask := 0xF0000000#32, pattern := 0x30000000#32 },
    { mnemonic := "DRAIN", mask := 0xF0000000#32, pattern := 0x40000000#32 },
    { mnemonic := "SETBTN", mask := 0xFFFFFF00#32, pattern := 0x50000000#32 } ]

/-- The mnemonic of the first row whose mask and pattern the word meets. -/
def tableMnemonic (p : AddrMap) (w : Word) : Option String :=
  ((opcodeTable p).find? (fun r => w &&& r.mask == r.pattern)).map TableRow.mnemonic

end Sys2Proof
end

