-- ==== Sys2Proof/Machine/State.lean ====
section
/-! DEFINITION. The machine's state as plain data: the spec's six elements (10_state.md R11), the button inputs (R19), and
the environment they act on; the reasons a step can stop; the state after reset. -/

namespace Sys2Proof.Machine

/-- The state of the DMA Engine (10_state.md R12, R13). -/
structure Dma where
  /-- `dma.audio_cycles`, unbounded (R12). -/
  audioCycles : Nat
  /-- `dma.oam_pending` (R13). -/
  oamPending : Bool
deriving DecidableEq, Repr

/-- `pad.mode` (10_state.md R15). -/
inductive PadMode where
  /-- The source's `strobeActive`: reads return button A. -/
  | latching
  /-- Reads walk the cursor. -/
  | shifting
deriving DecidableEq, Repr

/-- The state of the Controller Device (10_state.md R14 to R16). -/
structure Pad where
  /-- `pad.ctrl`, the last control byte written (R14). -/
  ctrl : Byte
  /-- `pad.mode` (R15). -/
  mode : PadMode
  /-- `pad.cursor`, 0..8 in every reachable state, 8 meaning exhausted (R16; log entry 13). -/
  cursor : Nat
deriving DecidableEq, Repr

/-- The eight buttons by name (10_state.md R19). -/
inductive Button where
  | a | b | select | start | up | down | left | right
deriving DecidableEq, Repr

/-- The direction of a bus access (10_state.md R17). -/
inductive Rw where
  | read
  | write
deriving DecidableEq, Repr

/-- What `core.fault` records: the direction and address of the offending access (10_state.md R17, 60_exceptions.md R89). -/
structure BusAccess where
  rw : Rw
  addr : Addr
deriving DecidableEq, Repr

/-- An access the DMA Engine makes outside the block (20_memory.md R33, R34). -/
inductive Access where
  /-- `MemRead(addr, 1)`, answered with `v`. -/
  | memRead (addr : Addr) (v : Byte)
  /-- `OamPush(k, v)`. -/
  | oamPush (k : Nat) (v : Byte)
deriving DecidableEq, Repr

/-- A value handed back to a caller (30_encoding.md R47). -/
inductive Returned where
  /-- The byte of a bus read. -/
  | busData (v : Byte)
  /-- The cycle count of a DRAIN. -/
  | stolenCycles (n : Nat)
deriving DecidableEq, Repr

/-- Main memory as far as the environment has fixed it: (address, byte) pairs, addresses strictly rising. -/
abbrev Memory := List Host.Cell

/-- The whole state. The first three fields are the spec's own (10_state.md R11); `btn` is input (R19); the rest is the
environment (log entries 1, 2, 6, 15). -/
structure State where
  /-- The DMA Engine. -/
  dma : Dma
  /-- The Controller Device. -/
  pad : Pad
  /-- `core.fault` (R17). -/
  fault : Option BusAccess
  /-- The button inputs `btn[0..7]` (R19). -/
  btn : Buttons
  /-- The OPEN address parameters (00_scope.md R9); no operation writes them. -/
  addrs : AddrMap
  /-- The bytes of main memory that the environment has fixed (20_memory.md R33); no operation writes them. -/
  mem : Memory
  /-- How many MemReads have been answered: what the free answers are a function of. The MODEL's own. -/
  reads : Nat
  /-- The external accesses made, oldest first (20_memory.md R34, R42). -/
  accesses : List Access
  /-- The values returned, oldest first (30_encoding.md R60). -/
  returned : List Returned
  /-- The operations the agents have issued and the block has not yet performed, next first (00_scope.md R8). -/
  requests : List Request
deriving DecidableEq, Repr

/-- Why a step ends in a fault. -/
inductive Fault where
  /-- `UnsupportedAddress(rw, addr)`, raised by PAD2R, BUSW.UNSUP and BUSR.UNSUP always and by nothing else
  (60_exceptions.md R89, R90). `left` is the state the fault leaves: unchanged but for `core.fault` (R94). The spec itself
  gives the step this outcome, "distinct from a next state", so stopping here is safe. -/
  | unsupportedAddress (info : BusAccess) (left : State)
deriving DecidableEq, Repr

/-- Why a step has no meaning. -/
inductive Refusal where
  /-- An operation the model gives no meaning yet; raised by exec's arms only. Safe. -/
  | notModelled (mnemonic : String)
  /-- An operation issued after a fault, raised by step: its behaviour "is not specified" and "a model must not define it"
  (60_exceptions.md R95, U4). Safe. -/
  | operationAfterFault
  /-- A packed word that is no operation, raised by step: "a decoder refuses it" (30_encoding.md R48, U14). Safe. -/
  | malformedRequest (r : Reject)
deriving DecidableEq, Repr

/-- The state after power-on (10_state.md R26, R27, R28): the DMA Engine with nothing pending, the Controller Device in
Shifting mode with cursor 0 and control byte 0x01, no fault; the buttons free (R28); no operation issued (log entries 1, 2,
6 to 9, 15). -/
def State.reset : State where
  dma := { audioCycles := 0, oamPending := false }
  pad := { ctrl := Config.padCtrlReset, mode := .shifting, cursor := 0 }
  fault := none
  btn := Config.btnAtReset
  addrs := AddrMap.usual
  mem := []
  reads := 0
  accesses := []
  returned := []
  requests := []

end Sys2Proof.Machine
end

