-- ==== Sys2Proof/Machine/Ops.lean ====
section
/-! DEFINITION. The shared operations: updates of one field, main memory as the environment presents it, the two access
primitives MemRead and OamPush (20_memory.md R33, R34), returning a value, raising the one fault (60_exceptions.md R89, R94),
and taking the next request. -/

namespace Sys2Proof.Machine

/-! Updates of one field. -/

def State.setDma (s : State) (d : Dma) : State := { s with dma := d }

def State.setPad (s : State) (q : Pad) : State := { s with pad := q }

def State.setFault (s : State) (f : Option BusAccess) : State := { s with fault := f }

def State.setBtn (s : State) (b : Buttons) : State := { s with btn := b }

def State.setReads (s : State) (n : Nat) : State := { s with reads := n }

def State.setRequests (s : State) (l : List Request) : State := { s with requests := l }

/-- Append an external access to the trace. -/
def State.logAccess (s : State) (x : Access) : State := { s with accesses := s.accesses ++ [x] }

/-- `return v` (00_scope.md R10): hand a value back to the caller. -/
def State.give (s : State) (v : Returned) : State := { s with returned := s.returned ++ [v] }

/-! Main memory as the environment presents it. -/

/-- The canonical form: addresses strictly rising and inside the 16-bit space (20_memory.md R31). An unlisted address has no
value of its own, so no entry can equal one (log entry 6). -/
abbrev Memory.wf (m : Memory) : Prop :=
  m.Pairwise (fun c d => c.1 < d.1) ∧ ∀ c ∈ m, c.1 < 2 ^ 16

/-- The byte the environment has fixed at an address, if it has. -/
def Memory.lookup : Memory → Nat → Option Byte
  | [], _ => none
  | (b, v) :: m, a => if a = b then some v else Memory.lookup m a

/-- The environment fixes the byte at an address. No operation of the block does this (20_memory.md R31: "The block never
writes main memory"). -/
def Memory.place : Memory → Nat → Byte → Memory
  | [], a, v => [(a, v)]
  | (b, w) :: m, a, v =>
    if a < b then (a, v) :: (b, w) :: m
    else if a = b then (a, v) :: m
    else (b, w) :: Memory.place m a v

/-- What an address the environment has not fixed reads as: a free value (20_memory.md R33, U7; log entry 6). -/
def unlistedByte (n : Nat) (addr : Addr) : Byte := Config.memOracle n addr

/-- The reader's answer to its n-th access, at `addr`, over the memory `m`. -/
def memAnswer (m : Memory) (n : Nat) (addr : Addr) : Byte :=
  match Memory.lookup m addr.toNat with
  | some v => v
  | none => unlistedByte n addr

/-- `MemRead(addr, 1)` (20_memory.md R33): total, one byte; here the byte it answers in a state. -/
def memReadValue (s : State) (addr : Addr) : Byte := memAnswer s.mem s.reads addr

/-- `MemRead(addr, 1)`: what it does to the state (one more answer given, one more access in the trace). It never touches the
block's own state, whatever the address (20_memory.md R45). -/
def memReadEffect (s : State) (addr : Addr) : State :=
  (s.logAccess (.memRead addr (memReadValue s addr))).setReads (s.reads + 1)

/-- `OamPush(k, v)` (20_memory.md R34). -/
def oamPush (s : State) (k : Nat) (v : Byte) : State := s.logAccess (.oamPush k v)

/-- The bytes the object-table sink has received, in order (20_memory.md R34). -/
def sinkTrace (l : List Access) : List Byte :=
  l.filterMap fun
    | .oamPush _ v => some v
    | .memRead _ _ => none

/-! The one fault. -/

/-- `core.fault <- (rw, addr)` if `core.fault` is none (60_exceptions.md R89). -/
def recordFault (s : State) (info : BusAccess) : State :=
  match s.fault with
  | none => s.setFault (some info)
  | some _ => s

/-- `raise UnsupportedAddress(rw, addr)` (00_scope.md R10, 60_exceptions.md R89, R94): the fault outcome, with the state it
leaves. There is no return from it (R95). -/
def raiseUnsupported (rw : Rw) (addr : Addr) (s : State) : Host.Outcome State Fault Refusal :=
  .fault (.unsupportedAddress { rw := rw, addr := addr } (recordFault s { rw := rw, addr := addr }))

/-- The cause code: 1 for UnsupportedAddress, 0 for no fault (60_exceptions.md R89, the spec's decision D12). -/
def faultCode (s : State) : Nat :=
  match s.fault with
  | none => 0
  | some _ => 1

/-! Taking the next request. -/

/-- What the block finds when it is asked to move. -/
inductive Fetched where
  /-- A fault has been recorded: nothing has a meaning any more (60_exceptions.md R95). -/
  | stopped
  /-- No agent has issued an operation (00_scope.md R8, 70_reset_and_hazards.md R102). -/
  | idle
  /-- The next request is a packed word that is no operation (30_encoding.md R48). -/
  | rejected (r : Reject)
  /-- The next request is the operation `i`; `s` is the state with the request taken. -/
  | operation (i : Instr) (s : State)
deriving DecidableEq, Repr

/-- Take the next request and decode it under the machine's address parameters. -/
def fetch (s : State) : Fetched :=
  match s.fault with
  | some _ => .stopped
  | none =>
    match s.requests with
    | [] => .idle
    | q :: rest =>
      match decodeRequest s.addrs q with
      | .ok i => .operation i (s.setRequests rest)
      | .error r => .rejected r

/-- Present a packed word as the next request. -/
def presentWord (s : State) (w : Word) : State := s.setRequests (.packed w :: s.requests)

end Sys2Proof.Machine
end

