-- ==== Sys2Proof/Machine/BusDispatch.lean ====
section
/-! DEFINITION. The two catch-all operations of the register bus: BUSW.UNSUP and BUSR.UNSUP (42_bus_dispatch.md R85, R86).
The dispatch itself is the decoder's (Sys2Proof.selectWrite, Sys2Proof.selectRead). -/

namespace Sys2Proof.Machine

/-- BUSW.UNSUP (42_bus_dispatch.md R85): `raise UnsupportedAddress(write, addr)`; the data byte is ignored. -/
def execBuswUnsup (addr : Addr) (_data : Byte) (s : State) : Host.Outcome State Fault Refusal :=
  raiseUnsupported .write addr s

/-- BUSR.UNSUP (42_bus_dispatch.md R86): `raise UnsupportedAddress(read, addr)`; no data is returned. -/
def execBusrUnsup (addr : Addr) (s : State) : Host.Outcome State Fault Refusal :=
  raiseUnsupported .read addr s

end Sys2Proof.Machine
end

