-- ==== Sys2Proof/Machine/Operands.lean ====
section
/-! DEFINITION. How operands are read: the fields of the control byte (10_state.md R14), the read order of the buttons
(41_controller.md R71), the button mask (30_encoding.md R54), the parity bit (R53), the source address (40_dma_engine.md R69). -/

namespace Sys2Proof.Machine

/-- `v[0]`, the strobe bit (30_encoding.md R50). -/
def strobe (v : Byte) : Bool := v.getLsbD 0

/-- `v[2:1]`, expansion-port data: stored, not interpreted (10_state.md R14). -/
def expField (v : Byte) : BitVec 2 := v.extractLsb' 1 2

/-- `v[7:3]`, reserved: stored, never read (10_state.md R14). -/
def reservedField (v : Byte) : BitVec 5 := v.extractLsb' 3 5

/-- `zext_8(b)` (00_scope.md R10): bit 0 is `b`, bits 7:1 are 0. -/
def zext8 (b : Bool) : Byte := if b then 0x01 else 0x00

/-- The button a cursor value selects (41_controller.md R71): A, B, Select, Start, Up, Down, Left, Right. -/
def buttonAt : Fin 8 → Button
  | 0 => .a
  | 1 => .b
  | 2 => .select
  | 3 => .start
  | 4 => .up
  | 5 => .down
  | 6 => .left
  | 7 => .right

/-- The state of one button, as it is now (10_state.md R18, R19). -/
def pressed (b : Buttons) : Button → Bool
  | .a => b.a
  | .b => b.b
  | .select => b.select
  | .start => b.start
  | .up => b.up
  | .down => b.down
  | .left => b.left
  | .right => b.right

/-- `btn[i]` (10_state.md R19, 41_controller.md R71). -/
def btnBit (b : Buttons) (i : Fin 8) : Bool := pressed b (buttonAt i)

/-- The button inputs a mask sets: bit i is `btn[i]` (30_encoding.md R54). -/
def buttonsOfMask (m : Byte) : Buttons :=
  { a := m.getLsbD 0, b := m.getLsbD 1, select := m.getLsbD 2, start := m.getLsbD 3,
    up := m.getLsbD 4, down := m.getLsbD 5, left := m.getLsbD 6, right := m.getLsbD 7 }

/-- `parity mod 2`: only bit 0 of DRAIN's operand is used (30_encoding.md R53). -/
def parityBit (parity : Nat) : Nat := parity % 2

/-- `EA_k = page * 256 + k` (40_dma_engine.md R69). -/
def sourceAddr (page : Byte) (k : Nat) : Addr := BitVec.ofNat 16 (page.toNat * Config.pageSize + k)

end Sys2Proof.Machine
end

