-- ==== Sys2Proof/Machine/Flags.lean ====
section
/-! DEFINITION. The block's two single-bit status elements (10_state.md R23): `dma.oam_pending` and `pad.mode`, the edge that
changes the mode (41_controller.md R72), and the charge a pending copy stands for (40_dma_engine.md R63, R65). -/

namespace Sys2Proof.Machine

/-- An edge of bit 0 of the control byte, between the stored byte and the byte being written (41_controller.md R72). -/
inductive Edge where
  /-- 1 to 0. -/
  | falling
  /-- 0 to 1. -/
  | rising
  /-- Bit 0 unchanged. -/
  | unchanged
deriving DecidableEq, Repr

/-- The edge from an old bit 0 to a new one. -/
def edgeOf (old new : Bool) : Edge :=
  match old, new with
  | true, false => .falling
  | false, true => .rising
  | true, true => .unchanged
  | false, false => .unchanged

/-- The Controller Device after a control byte is written (41_controller.md R72). A rising edge leaves the cursor. -/
def padAfterWrite (q : Pad) (v : Byte) : Pad :=
  match edgeOf (strobe q.ctrl) (strobe v) with
  | .falling => { ctrl := v, mode := .latching, cursor := 0 }
  | .rising => { ctrl := v, mode := .shifting, cursor := q.cursor }
  | .unchanged => { ctrl := v, mode := q.mode, cursor := q.cursor }

/-- The byte a read of the primary controller register returns (41_controller.md R73). The buttons are sampled live. -/
def padReadValue (q : Pad) (b : Buttons) : Byte :=
  match q.mode with
  | .latching => zext8 (btnBit b 0)
  | .shifting => if h : q.cursor < 8 then zext8 (btnBit b ⟨q.cursor, h⟩) else Config.padExhaustedValue

/-- The Controller Device after such a read: only the cursor can move (41_controller.md R73). -/
def padAfterRead (q : Pad) : Pad :=
  match q.mode with
  | .latching => q
  | .shifting => if q.cursor < Config.cursorMax then { q with cursor := q.cursor + 1 } else q

/-- The object-table term of a DRAIN (40_dma_engine.md R63): 513 plus the parity bit if a copy is pending, else 0. -/
def oamCharge (pending : Bool) (parity : Nat) : Nat :=
  if pending then Config.oamCostBase + parityBit parity else 0

/-- The DMA Engine with nothing pending: what a DRAIN leaves (40_dma_engine.md R63). -/
def dmaDrained : Dma := { audioCycles := 0, oamPending := false }

end Sys2Proof.Machine
end

