-- ==== Sys2Proof/Machine/Controller.lean ====
section
/-! DEFINITION. The Controller Device's operations: PADW, PADR, PAD2R, SETBTN (41_controller.md R72 to R75). -/

namespace Sys2Proof.Machine

/-- PADW (41_controller.md R72): edge of bit 0 against the stored byte; the whole byte is stored. -/
def execPadw (v : Byte) (s : State) : Host.Outcome State Fault Refusal :=
  .next (s.setPad (padAfterWrite s.pad v))

/-- PADR (41_controller.md R73): the live button bit, and the cursor moved on in Shifting mode. -/
def execPadr (s : State) : Host.Outcome State Fault Refusal :=
  .next ((s.setPad (padAfterRead s.pad)).give (.busData (padReadValue s.pad s.btn)))

/-- PAD2R (41_controller.md R74): `raise UnsupportedAddress(read, ADDR_PAD2)`. -/
def execPad2r (s : State) : Host.Outcome State Fault Refusal :=
  raiseUnsupported .read s.addrs.pad2 s

/-- SETBTN (41_controller.md R75): `btn[i] <- mask[i]` for i = 0..7. -/
def execSetbtn (mask : Byte) (s : State) : Host.Outcome State Fault Refusal :=
  .next (s.setBtn (buttonsOfMask mask))

end Sys2Proof.Machine
end

