-- ==== Sys2Proof/Machine/DmaEngine.lean ====
section
/-! DEFINITION. The DMA Engine's operations: OAMDMA, ADDAUD, DRAIN (40_dma_engine.md R61, R62, R63). -/

namespace Sys2Proof.Machine

/-- One turn of the copy loop: `v <- MemRead(page * 256 + k, 1); OamPush(k, v)` (40_dma_engine.md R61, 20_memory.md R42). -/
def copyByte (page : Byte) (k : Nat) (s : State) : State :=
  oamPush (memReadEffect s (sourceAddr page k)) k (memReadValue s (sourceAddr page k))

/-- `n` turns of the loop, from offset `k` on. -/
def copyFrom (page : Byte) : Nat → Nat → State → State
  | 0, _, s => s
  | n + 1, k, s => copyFrom page n (k + 1) (copyByte page k s)

/-- OAMDMA (40_dma_engine.md R61): the 256 bytes of the page, offset 0 first; then `dma.oam_pending <- true`. -/
def execOamdma (page : Byte) (s : State) : Host.Outcome State Fault Refusal :=
  .next ((copyFrom page Config.pageSize 0 s).setDma { s.dma with oamPending := true })

/-- ADDAUD (40_dma_engine.md R62): `dma.audio_cycles <- dma.audio_cycles + cycles`, exact. -/
def execAddaud (cycles : Nat) (s : State) : Host.Outcome State Fault Refusal :=
  .next (s.setDma { s.dma with audioCycles := s.dma.audioCycles + cycles })

/-- DRAIN (40_dma_engine.md R63): return the audio cycles plus the object-table term, and clear both elements. -/
def execDrain (parity : Nat) (s : State) : Host.Outcome State Fault Refusal :=
  .next ((s.setDma dmaDrained).give (.stolenCycles (s.dma.audioCycles + oamCharge s.dma.oamPending parity)))

end Sys2Proof.Machine
end

