-- ==== Sys2Proof/Machine/Dispatch.lean ====
section
/-! DEFINITION. One arm per operation, each one direct call of its meaning. -/

namespace Sys2Proof.Machine

/-- The effect of one operation on a state. -/
def exec (i : Instr) (s : State) : Host.Outcome State Fault Refusal :=
  match i with
  | .oamdma page => Sys2Proof.Machine.execOamdma page s
  | .padw v => Sys2Proof.Machine.execPadw v s
  | .buswUnsup addr data => Sys2Proof.Machine.execBuswUnsup addr data s
  | .padr => Sys2Proof.Machine.execPadr s
  | .pad2r => Sys2Proof.Machine.execPad2r s
  | .busrUnsup addr => Sys2Proof.Machine.execBusrUnsup addr s
  | .addaud cycles => Sys2Proof.Machine.execAddaud cycles s
  | .drain parity => Sys2Proof.Machine.execDrain parity s
  | .setbtn mask => Sys2Proof.Machine.execSetbtn mask s

end Sys2Proof.Machine
end

