-- ==== Sys2Proof/Machine/Step.lean ====
section
/-! DEFINITION. One step: take the next request, decode it, perform it (00_scope.md R7, R8; 20_memory.md R41). -/

namespace Sys2Proof.Machine

/-- Perform the next operation. With none issued nothing happens (log entry 3); after a fault and on a malformed word the
model refuses (60_exceptions.md R95, 30_encoding.md R48). -/
def step (s : State) : Host.Outcome State Fault Refusal :=
  match fetch s with
  | .stopped => .refused .operationAfterFault
  | .idle => .next s
  | .rejected r => .refused (.malformedRequest r)
  | .operation i t => exec i t

/-- Present a table word as the very next request (log entries 2 and 19). -/
def State.withFetchWord (s : State) (nbits w : Nat) : State :=
  presentWord s (tableWord nbits w)

end Sys2Proof.Machine
end

