-- ==== Sys2Proof/Machine/Script.lean ====
section
/-! DEFINITION. Sequences of operations: performing a list of them one after another (20_memory.md R41), the script notation's
lines (30_encoding.md R58) and its pseudo-operations (R59). -/

namespace Sys2Proof.Machine

/-- Perform operations one after another: "the state after operation n is the input state of operation n+1"
(20_memory.md R41 (a)), stopping at a fault (60_exceptions.md R94, R95). -/
def execAll : List Instr → State → Host.Outcome State Fault Refusal
  | [], s => .next s
  | i :: is, s =>
    match exec i s with
    | .next t => execAll is t
    | .fault f => .fault f
    | .refused r => .refused r

/-- One line of the script notation (30_encoding.md R58). -/
inductive Line where
  | busw (addr : Addr) (v : Byte)
  | busr (addr : Addr)
  | oamdma (page : Byte)
  | padw (v : Byte)
  | padr
  | pad2r
  | addaud (n : Nat)
  | drain (p : Nat)
  | setbtn (mask : Byte)
deriving DecidableEq, Repr

/-- The record a line stands for. OAMDMA, PADW, PADR and PAD2R are "the names of what `BUSW` and `BUSR` decode to at the
three parameter addresses" (30_encoding.md R58). -/
def lineRecord (p : AddrMap) : Line → Record
  | .busw addr v => .bw addr v
  | .busr addr => .br addr
  | .oamdma page => .bw p.oamdma page
  | .padw v => .bw p.pad1 v
  | .padr => .br p.pad1
  | .pad2r => .br p.pad2
  | .addaud n => .aa n
  | .drain n => .dr n
  | .setbtn mask => .sb mask

/-- The pseudo-operations (30_encoding.md R59). -/
inductive Pseudo where
  | rearm
  | latch
  | read8
  | press (held : List Button)
  | dma (page : Byte) (parity : Nat)
deriving DecidableEq, Repr

/-- The mask bit of a button: bits 0..7 in read order (30_encoding.md R59, R54). -/
def buttonBit : Button → Byte
  | .a => 0x01
  | .b => 0x02
  | .select => 0x04
  | .start => 0x08
  | .up => 0x10
  | .down => 0x20
  | .left => 0x40
  | .right => 0x80

/-- The mask of the named buttons, all others clear (30_encoding.md R59, `PRESS`). -/
def pressMask : List Button → Byte
  | [] => 0x00
  | x :: xs => buttonBit x ||| pressMask xs

/-- The exact expansion of a pseudo-operation (30_encoding.md R59). -/
def pseudoLines : Pseudo → List Line
  | .rearm => [.padw 0x01, .padw 0x00, .padw 0x01]
  | .latch => [.padw 0x01, .padw 0x00]
  | .read8 => [.padr, .padr, .padr, .padr, .padr, .padr, .padr, .padr]
  | .press held => [.setbtn (pressMask held)]
  | .dma page parity => [.oamdma page, .drain parity]

/-- The operations that script lines are, under the address parameters (30_encoding.md R55, R58). -/
def lineOps (p : AddrMap) (ls : List Line) : List Instr :=
  ls.map fun l => select p (lineRecord p l)

/-- Perform script lines under the machine's own address parameters. -/
def execLines (ls : List Line) (s : State) : Host.Outcome State Fault Refusal :=
  execAll (lineOps s.addrs ls) s

end Sys2Proof.Machine
end

