-- ==== Sys2Proof/Safety.lean ====
section
/-! DEFINITION. What counts as safe, in the terms the statements use: the bus accesses the block claims (42_bus_dispatch.md
R88), states from which no fault can come, and the invariant of 10_state.md R29. -/

namespace Sys2Proof.Machine

/-- A record that raises no fault: one of the three claimed (direction, address) pairs, or no bus access at all
(42_bus_dispatch.md R88, 20_memory.md R39). -/
def recordClaimed (p : AddrMap) : Record → Bool
  | .bw addr _ => addr == p.oamdma || addr == p.pad1
  | .br addr => addr == p.pad1
  | .aa _ => true
  | .dr _ => true
  | .sb _ => true

/-- A request that is an operation and raises no fault. -/
def requestClaimed (p : AddrMap) : Request → Bool
  | .record r => recordClaimed p r
  | .packed w =>
    match unpack w with
    | .ok r => recordClaimed p r
    | .error _ => false

/-- No fault recorded, and every access the callers have issued is one the block claims: "the precondition under which a
program never faults" (42_bus_dispatch.md R88). -/
def State.Safe (s : State) : Prop :=
  s.fault = none ∧ ∀ q ∈ s.requests, requestClaimed s.addrs q = true

/-- The invariant of the Controller Device (10_state.md R29 (a), (b), (c)). -/
structure PadInv (q : Pad) : Prop where
  cursor_le : q.cursor ≤ 8
  latching_cursor : q.mode = .latching → q.cursor = 0
  latching_iff : q.mode = .latching ↔ strobe q.ctrl = false

/-- The invariant of the machine: R29 (a) to (c), memory in canonical form, addresses pairwise distinct (00_scope.md R9). -/
structure State.Inv (s : State) : Prop where
  pad : PadInv s.pad
  mem : Memory.wf s.mem
  addrs : s.addrs.Distinct

end Sys2Proof.Machine
end

