-- ==== Sys2Proof/Certificates/Slice0/Obligations.lean ====
section
/-! DEFINITION. The statements for the provers: the rules of spec/ that say what an operation or the machine does. The words in
which some of them speak come first. -/

namespace Sys2Proof.Statements

open Sys2Proof.Machine

/-- The buttons in read order A, B, Select, Start, Up, Down, Left, Right (41_controller.md R71). -/
def readOrder (b : Buttons) : List Bool := [b.a, b.b, b.select, b.start, b.up, b.down, b.left, b.right]

/-- A bit as a byte: bit 0 is the bit, bits 7:1 are 0. -/
def bitByte (x : Bool) : Byte := if x then 0x01 else 0x00

/-- The byte MemRead answers for offset k of a transfer of `page` that starts after `n` answered reads. -/
def transferByte (m : Memory) (n : Nat) (page : Byte) (k : Nat) : Byte :=
  memAnswer m (n + k) (BitVec.ofNat 16 (page.toNat * 256 + k))

/-- Read 0, push 0, read 1, push 1, ... read 255, push 255, each push the byte just read. -/
def transferTrace (m : Memory) (n : Nat) (page : Byte) : List Access :=
  (List.range 256).flatMap fun k =>
    [.memRead (BitVec.ofNat 16 (page.toNat * 256 + k)) (transferByte m n page k), .oamPush k (transferByte m n page k)]

/-- What the transition table of 41_controller.md section 6 looks at: mode, bit 0 of the control byte, cursor. -/
def padView (q : Pad) : PadMode × Bool × Nat := (q.mode, q.ctrl.getLsbD 0, q.cursor)

/-- The DMA Engine's three operations. -/
def IsDmaOp (i : Instr) : Prop :=
  (∃ page, i = .oamdma page) ∨ (∃ c, i = .addaud c) ∨ (∃ q, i = .drain q)

/-- The Controller Device's operations that do not fault. -/
def IsPadOp (i : Instr) : Prop :=
  (∃ v, i = .padw v) ∨ i = .padr ∨ (∃ m, i = .setbtn m)

/-- The three operations that always fault. -/
def IsFaultOp (i : Instr) : Prop :=
  i = .pad2r ∨ (∃ addr data, i = .buswUnsup addr data) ∨ (∃ addr, i = .busrUnsup addr)

/-- What an operation adds to the audio cycles. -/
def audioOperand : Instr → Nat
  | .addaud c => c
  | _ => 0

/-- Whether an operation is an OAMDMA. -/
def isOamdma : Instr → Bool
  | .oamdma _ => true
  | _ => false

/-- The value of the bus read, where the returned value is one. -/
def busByte : Returned → Option Byte
  | .busData v => some v
  | .stolenCycles _ => none

/-- 41_controller.md R81's other machine: PADR's cursor grows without bound and its third branch tests `cursor >= 8`. The value
0x01 it returns there is the spec's decision D6, the zero bits 7:1 its decision D8 (log entries 10, 11). -/
def execUnbounded (i : Instr) (s : State) : Host.Outcome State Fault Refusal :=
  match i, s.pad.mode with
  | .padr, .shifting => .next
      { s with
        pad := { s.pad with cursor := s.pad.cursor + 1 }
        returned := s.returned ++
          [.busData (match (readOrder s.btn)[s.pad.cursor]? with | some x => bitByte x | none => 0x01)] }
  | j, _ => exec j s

/-- Sequences of operations on that other machine. -/
def execAllUnbounded : List Instr → State → Host.Outcome State Fault Refusal
  | [], s => .next s
  | i :: is, s =>
    match execUnbounded i s with
    | .next t => execAllUnbounded is t
    | .fault f => .fault f
    | .refused r => .refused r

/-- The state with its cursor cut at 8. -/
def saturate (s : State) : State := { s with pad := { s.pad with cursor := min s.pad.cursor 8 } }

/-- The state with bits 7:1 of `pad.ctrl` erased. -/
def eraseState (s : State) : State := { s with pad := { s.pad with ctrl := s.pad.ctrl &&& 0x01 } }

/-- The operation with bits 7:1 of a written control byte erased. -/
def eraseInstr : Instr → Instr
  | .padw v => .padw (v &&& 0x01)
  | i => i

end Sys2Proof.Statements

open Sys2Proof Sys2Proof.Machine Sys2Proof.Statements

/-! ## Reset and invariants -/

/-- 10_state.md section 8. The mode and the cursor are the source's "treat as"; the other values are the spec's own decisions
D4, D5 and D12 (log entries 4, 8, 9). A DRAIN before any other operation returns 0 (70_reset_and_hazards.md section 2). -/
def Obligations.ResetHoldsTheSpecsValues : Prop :=
  State.reset.dma.audioCycles = 0 ∧ State.reset.dma.oamPending = false ∧
  State.reset.pad.mode = .shifting ∧ State.reset.pad.cursor = 0 ∧ State.reset.pad.ctrl = 0x01 ∧
  State.reset.fault = none ∧
  ∀ parity, ∃ t, exec (.drain parity) State.reset = .next t ∧ t.returned = [.stolenCycles 0]

/-- 10_state.md section 9 (R29 (a), (b), (c), which the spec marks as derived), with the canonical form of memory and the
distinctness of the addresses. At reset (c) rests on the spec's decision D5, the
distinctness on log entry 1; the canonical form is log entry 17. -/
def Obligations.InvariantHoldsAtReset : Prop :=
  State.reset.Inv

/-- 10_state.md section 9, as a property of the step from EVERY state that has it; the state a fault leaves has it too. What
a fault leaves is the spec's decision D12 (log entry 4). -/
def Obligations.EveryStepKeepsInvariant : Prop :=
  ∀ s : State, s.Inv →
    (∀ t, step s = .next t → t.Inv) ∧
    (∀ info left, step s = .fault (.unsupportedAddress info left) → left.Inv)

/-! ## Encoding -/

/-- 30_encoding.md sections 1 and 3. The packed word is the spec's decision D17. -/
def Obligations.DecodeOfEncodeIsTheOperation : Prop :=
  ∀ (p : AddrMap) (i : Instr), p.Distinct → i.wf p = true → i.packable = true → decode p (encode p i) = .ok i

/-- 30_encoding.md sections 1 and 3, the other direction: no two words decode to one operation, and what decodes is well
formed. The packed word is the spec's decision D17. -/
def Obligations.EncodeOfDecodeIsTheWord : Prop :=
  ∀ (p : AddrMap) (w : Word) (i : Instr), decode p w = .ok i →
    i.wf p = true ∧ i.packable = true ∧ encode p i = w

/-- opcode_table.json: the decoder takes the first row whose mask and match the word meets, and refuses a word that meets none.
The packed word is the spec's decision D17. -/
def Obligations.DecodeAgreesWithOpcodeTable : Prop :=
  ∀ (p : AddrMap) (w : Word),
    (∀ i, decode p w = .ok i → tableMnemonic p w = some i.mnemonic) ∧
    (∀ e, decode p w = .error e → tableMnemonic p w = none)

/-- 30_encoding.md section 1: which words are refused, by their bits as numbers. The packed word is the spec's decision
D17. -/
def Obligations.MalformedWordsAreRefused : Prop :=
  ∀ (p : AddrMap) (w : Word),
    (∃ e, decode p w = .error e) ↔
      (w.toNat / 2 ^ 28 = 0 ∨ 6 ≤ w.toNat / 2 ^ 28 ∨
       (w.toNat / 2 ^ 28 = 1 ∧ w.toNat / 2 ^ 24 % 16 ≠ 0) ∨
       (w.toNat / 2 ^ 28 = 2 ∧ (w.toNat / 2 ^ 24 % 16 ≠ 0 ∨ w.toNat % 256 ≠ 0)) ∨
       (w.toNat / 2 ^ 28 = 5 ∧ w.toNat / 2 ^ 8 % 2 ^ 20 ≠ 0))

/-- 95_test_vectors.md V26, at the addresses the table is printed for (log entry 1). -/
def Obligations.WrittenWordsDecode : Prop :=
  decode AddrMap.usual 0x10401402 = .ok (.oamdma 0x02) ∧
  decode AddrMap.usual 0x10401601 = .ok (.padw 0x01) ∧
  decode AddrMap.usual 0x10401500 = .ok (.buswUnsup 0x4015 0x00) ∧
  decode AddrMap.usual 0x20401600 = .ok .padr ∧
  decode AddrMap.usual 0x20401700 = .ok .pad2r ∧
  decode AddrMap.usual 0x20401400 = .ok (.busrUnsup 0x4014) ∧
  decode AddrMap.usual 0x30000004 = .ok (.addaud 4) ∧
  decode AddrMap.usual 0x40000001 = .ok (.drain 1) ∧
  decode AddrMap.usual 0x50000089 = .ok (.setbtn 0x89)

/-! ## The step -/

/-- 00_scope.md section 4, 20_memory.md section 5: the next request issued is the operation performed, on the state with that
request taken. That requests stand in a list is log entry 2. -/
def Obligations.StepPerformsTheNextRequest : Prop :=
  ∀ (s : State) (q : Request) (rest : List Request), s.fault = none → s.requests = q :: rest →
    (∀ r, q = .record r → step s = exec (select s.addrs r) { s with requests := rest }) ∧
    (∀ w i, q = .packed w → decode s.addrs w = .ok i → step s = exec i { s with requests := rest })

/-- 60_exceptions.md section 4 and 30_encoding.md section 1: an operation after a fault, and a malformed word, are refused by
name. With nothing issued nothing changes: that a step then answers the same state is the model's choice (log entry 3). -/
def Obligations.StepRefusesOrIdles : Prop :=
  ∀ s : State,
    (∀ f, s.fault = some f → step s = .refused .operationAfterFault) ∧
    (s.fault = none → s.requests = [] → step s = .next s) ∧
    (∀ w rest e, s.fault = none → s.requests = .packed w :: rest → decode s.addrs w = .error e →
      step s = .refused (.malformedRequest e))

/-- 42_bus_dispatch.md R83. -/
def Obligations.BusWriteIsDispatchedByAddress : Prop :=
  ∀ (s : State) (addr : Addr) (data : Byte) (rest : List Request),
    s.fault = none → s.requests = .record (.bw addr data) :: rest →
    (addr = s.addrs.oamdma → step s = exec (.oamdma data) { s with requests := rest }) ∧
    (addr ≠ s.addrs.oamdma → addr = s.addrs.pad1 → step s = exec (.padw data) { s with requests := rest }) ∧
    (addr ≠ s.addrs.oamdma → addr ≠ s.addrs.pad1 → step s = exec (.buswUnsup addr data) { s with requests := rest })

/-- 42_bus_dispatch.md section of R84. That a read of ADDR_OAMDMA faults is the spec's own decision D13, that a read of
ADDR_PAD2 does is its decision D14; what
the fault leaves is its decision D12. -/
def Obligations.BusReadIsDispatchedByAddress : Prop :=
  ∀ (s : State) (addr : Addr) (rest : List Request),
    s.fault = none → s.requests = .record (.br addr) :: rest →
    (addr = s.addrs.pad1 → step s = exec .padr { s with requests := rest }) ∧
    (addr ≠ s.addrs.pad1 →
      step s = .fault (.unsupportedAddress { rw := .read, addr := addr }
        { s with requests := rest, fault := some { rw := .read, addr := addr } }))

/-! ## DMA Engine -/

/-- 40_dma_engine.md R61: OAMDMA always completes; the 256 reads and pushes in order, offset 0 first; the pending flag; nothing
else of the state; no wrap of the address; a transfer while one is pending is done in full and charged once. -/
def Obligations.OamdmaCopiesThePageInOrder : Prop :=
  ∀ (page : Byte) (s : State),
    select s.addrs (.bw s.addrs.oamdma page) = .oamdma page ∧
    (encode s.addrs (.oamdma page)).toNat = 0x10000000 + s.addrs.oamdma.toNat * 2 ^ 8 + page.toNat ∧
    (∀ k, k < 256 → (BitVec.ofNat 16 (page.toNat * 256 + k)).toNat = page.toNat * 256 + k) ∧
    ∃ t, exec (.oamdma page) s = .next t ∧
      t = { s with
            dma := { s.dma with oamPending := true }
            reads := s.reads + 256
            accesses := s.accesses ++ transferTrace s.mem s.reads page } ∧
      sinkTrace t.accesses = sinkTrace s.accesses ++ (List.range 256).map (transferByte s.mem s.reads page) ∧
      ∀ page' parity, ∃ u, execAll [.oamdma page', .drain parity] t = .next u ∧
        sinkTrace u.accesses = sinkTrace t.accesses ++ (List.range 256).map (transferByte t.mem t.reads page') ∧
        u.returned = s.returned ++ [.stolenCycles (s.dma.audioCycles + (513 + parity % 2))]

/-- 95_test_vectors.md E6: where the environment has fixed the bytes of the page, exactly those bytes reach the sink, in
ascending offset order. That a listed byte answers every read is the model's choice, log entry 6. -/
def Obligations.TransferDeliversThePlacedPage : Prop :=
  ∀ (page : Byte) (s : State) (f : Nat → Byte),
    (∀ k, k < 256 → Memory.lookup s.mem (page.toNat * 256 + k) = some (f k)) →
    ∃ t, exec (.oamdma page) s = .next t ∧ sinkTrace t.accesses = sinkTrace s.accesses ++ (List.range 256).map f

/-- 40_dma_engine.md section 2 (R62). That the sum has no bound is the spec's decision D10 (log entry 12). -/
def Obligations.AddaudAddsExactly : Prop :=
  ∀ (c : Nat) (s : State),
    select s.addrs (.aa c) = .addaud c ∧
    (c < 2 ^ 28 → (encode s.addrs (.addaud c)).toNat = 0x30000000 + c) ∧
    exec (.addaud c) s = .next { s with dma := { s.dma with audioCycles := s.dma.audioCycles + c } } ∧
    exec (.addaud 0) s = .next s ∧
    ∀ d, execAll [.addaud c, .addaud d] s =
      .next { s with dma := { s.dma with audioCycles := s.dma.audioCycles + (c + d) } }

/-- 40_dma_engine.md R63. -/
def Obligations.DrainReturnsTheSumAndClearsBoth : Prop :=
  ∀ (parity : Nat) (s : State),
    select s.addrs (.dr parity) = .drain parity ∧
    (parity < 2 ^ 28 → (encode s.addrs (.drain parity)).toNat = 0x40000000 + parity) ∧
    ∃ t, exec (.drain parity) s = .next t ∧
      t = { s with
            dma := { audioCycles := 0, oamPending := false }
            returned := s.returned ++
              [.stolenCycles (s.dma.audioCycles + (if s.dma.oamPending = true then 513 + parity % 2 else 0))] } ∧
      ∀ parity', exec (.drain parity') t = .next { t with returned := t.returned ++ [.stolenCycles 0] }

/-- 40_dma_engine.md sections 1 to 3, "State written", with 20_memory.md section 1 ("The block never writes main memory"): what
OAMDMA, ADDAUD and DRAIN leave unchanged. OAMDMA stores nothing in memory; it changes the pending flag, the trace and the count
of answered reads, of which the answers at unlisted addresses are a free function (log entry 6). -/
def Obligations.DmaOperationsFrame : Prop :=
  ∀ (i : Instr) (s t : State), IsDmaOp i → exec i s = .next t →
    t.pad = s.pad ∧ t.fault = s.fault ∧ t.btn = s.btn ∧ t.addrs = s.addrs ∧ t.requests = s.requests ∧
    (∀ a, Memory.lookup t.mem a = Memory.lookup s.mem a) ∧
    (∀ (addr : Addr) v, Memory.lookup s.mem addr.toNat = some v → memReadValue t addr = memReadValue s addr) ∧
    ((∃ page, i = .oamdma page) → t.dma.audioCycles = s.dma.audioCycles ∧ t.returned = s.returned) ∧
    ((∃ c, i = .addaud c) → t.dma.oamPending = s.dma.oamPending ∧ t.returned = s.returned) ∧
    ((∀ page, i ≠ .oamdma page) → t.accesses = s.accesses ∧ t.reads = s.reads ∧
      ∀ addr, memReadValue t addr = memReadValue s addr)

/-- 40_dma_engine.md R69: the one effective address; the store side has no address; no other operation accesses memory, a
faulting one included, and no byte of memory changes. -/
def Obligations.OnlyOamdmaAccessesMemory : Prop :=
  ∀ (i : Instr) (s : State),
    (∀ t, exec i s = .next t →
      (∀ a, Memory.lookup t.mem a = Memory.lookup s.mem a) ∧
      (∀ page, i = .oamdma page →
        t.accesses = s.accesses ++ (List.range 256).flatMap fun k =>
          [.memRead (BitVec.ofNat 16 (page.toNat * 256 + k)) (transferByte s.mem s.reads page k),
           .oamPush k (transferByte s.mem s.reads page k)]) ∧
      ((∀ page, i ≠ .oamdma page) → t.accesses = s.accesses ∧ t.reads = s.reads)) ∧
    (∀ info left, exec i s = .fault (.unsupportedAddress info left) →
      left.accesses = s.accesses ∧ left.reads = s.reads ∧ ∀ a, Memory.lookup left.mem a = Memory.lookup s.mem a)

/-- 10_state.md section 9 (R29 (d), (e)) with 40_dma_engine.md section 4 (R66, R68, all marked derived): over any sequence of
operations without a DRAIN, the audio cycles are the sum of the ADDAUD operands, the flag says whether an OAMDMA was among
them, and the next DRAIN returns the sum, plus 513 and the parity bit ONCE however many OAMDMAs there were. That the
sum has no bound is the spec's decision D10 (log entry 12). -/
def Obligations.DrainReportsAllSinceTheLastDrain : Prop :=
  ∀ (is : List Instr) (s t : State), (∀ i ∈ is, ∀ q, i ≠ .drain q) → execAll is s = .next t →
    t.dma.audioCycles = s.dma.audioCycles + (is.map audioOperand).sum ∧
    (t.dma.oamPending = true ↔ s.dma.oamPending = true ∨ ∃ page, Instr.oamdma page ∈ is) ∧
    ∀ parity, ∃ u, exec (.drain parity) t = .next u ∧ u.dma = { audioCycles := 0, oamPending := false } ∧
      u.returned = t.returned ++
        [.stolenCycles (s.dma.audioCycles + (is.map audioOperand).sum +
          (if s.dma.oamPending = true ∨ is.any isOamdma = true then 513 + parity % 2 else 0))]

/-- 40_dma_engine.md section 4 (R68, marked derived): every OAMDMA of a sequence copies in full, 256 reads and 256 pushes. -/
def Obligations.EveryTriggerCopiesInFull : Prop :=
  ∀ (is : List Instr) (s t : State), execAll is s = .next t →
    t.reads = s.reads + 256 * is.countP isOamdma ∧
    t.accesses.length = s.accesses.length + 512 * is.countP isOamdma ∧
    (sinkTrace t.accesses).length = (sinkTrace s.accesses).length + 256 * is.countP isOamdma

/-! ## Controller Device -/

/-- 41_controller.md R72: PADW always completes; the whole byte is stored; the three edges; nothing else of the state. In states
with the device's invariant the cursor is 0 after a rising edge (corner case (d)). -/
def Obligations.PadwActsOnEdgesOfBitZero : Prop :=
  ∀ (v : Byte) (s : State),
    (s.addrs.oamdma ≠ s.addrs.pad1 → select s.addrs (.bw s.addrs.pad1 v) = .padw v) ∧
    (encode s.addrs (.padw v)).toNat = 0x10000000 + s.addrs.pad1.toNat * 2 ^ 8 + v.toNat ∧
    ∃ t, exec (.padw v) s = .next t ∧ t = { s with pad := t.pad } ∧ t.pad.ctrl = v ∧
      (s.pad.ctrl.getLsbD 0 = true → v.getLsbD 0 = false → t.pad.mode = .latching ∧ t.pad.cursor = 0) ∧
      (s.pad.ctrl.getLsbD 0 = false → v.getLsbD 0 = true → t.pad.mode = .shifting ∧ t.pad.cursor = s.pad.cursor ∧
        (PadInv s.pad → t.pad.cursor = 0)) ∧
      (s.pad.ctrl.getLsbD 0 = v.getLsbD 0 → t.pad.mode = s.pad.mode ∧ t.pad.cursor = s.pad.cursor)

/-- 41_controller.md section 3: PADR always completes; the byte and the cursor in the three cases; nothing else of the state.
The exhausted value 0x01 is the spec's decision D6 and the zero bits 7:1 its decision D8 (log entries 10, 11); a cursor above 8,
which no run reaches, is log entry 13. -/
def Obligations.PadrReturnsTheNextButton : Prop :=
  ∀ s : State, ∃ t v, exec .padr s = .next t ∧
    t = { s with
          pad := { s.pad with cursor := t.pad.cursor }
          returned := s.returned ++ [.busData v] } ∧
    (s.pad.mode = .latching → v = bitByte s.btn.a ∧ t.pad.cursor = s.pad.cursor) ∧
    (s.pad.mode = .shifting → ∀ x, (readOrder s.btn)[s.pad.cursor]? = some x →
      v = bitByte x ∧ t.pad.cursor = s.pad.cursor + 1) ∧
    (s.pad.mode = .shifting → 8 ≤ s.pad.cursor → v = 0x01 ∧ t.pad.cursor = s.pad.cursor)

/-- 41_controller.md R71: cursor value i selects the i-th of A, B, Select, Start, Up, Down, Left, Right, and 8 selects none; so
eight reads from cursor 0 return the eight buttons in that order, in bit 0. -/
def Obligations.ButtonsAreReadInTheFixedOrder : Prop :=
  (∀ b : Buttons, (∀ i : Fin 8, (readOrder b)[i.val]? = some (btnBit b i)) ∧ (readOrder b)[8]? = none) ∧
  (∀ (s : State) (x : Bool), s.pad.mode = .shifting → (readOrder s.btn)[s.pad.cursor]? = some x →
    ∃ t v, exec .padr s = .next t ∧ t.returned = s.returned ++ [.busData v] ∧ v.getLsbD 0 = x) ∧
  (∀ s : State, s.pad.mode = .shifting → s.pad.cursor = 0 →
    ∃ (t : State) (vs : List Byte), execAll (List.replicate 8 .padr) s = .next t ∧ t.returned = s.returned ++ vs.map .busData ∧
      vs.map (fun v => v.getLsbD 0) = readOrder s.btn ∧ t.pad.cursor = 8)

/-- 41_controller.md section 5. The packing of the mask is the spec's decision D9, the agents' interleaving its decision D18. -/
def Obligations.SetbtnSetsTheEightInputs : Prop :=
  ∀ (m : Byte) (s : State), ∃ t, exec (.setbtn m) s = .next t ∧ t = { s with btn := t.btn } ∧
    readOrder t.btn = (List.range 8).map fun i => m.getLsbD i

/-- 41_controller.md sections 2, 3 and 5, "State written": what PADW, PADR and SETBTN leave unchanged. None of them accesses
memory. -/
def Obligations.PadOperationsFrame : Prop :=
  ∀ (i : Instr) (s t : State), IsPadOp i → exec i s = .next t →
    t.dma = s.dma ∧ t.fault = s.fault ∧ t.addrs = s.addrs ∧ t.requests = s.requests ∧
    t.accesses = s.accesses ∧ t.reads = s.reads ∧
    (∀ a, Memory.lookup t.mem a = Memory.lookup s.mem a) ∧ (∀ addr, memReadValue t addr = memReadValue s addr) ∧
    ((∀ m, i ≠ .setbtn m) → t.btn = s.btn) ∧
    ((∀ v, i ≠ .padw v) → t.pad.ctrl = s.pad.ctrl ∧ t.pad.mode = s.pad.mode) ∧
    (i ≠ .padr → t.returned = s.returned) ∧
    ((∃ m, i = .setbtn m) → t.pad.cursor = s.pad.cursor)

/-- 41_controller.md section 6: the complete transition table, row by row, on (mode, bit 0 of the control byte, cursor); "only
the rows shown are reachable" is the first clause. The value 0x01 of the exhausted row is the spec's decision D6 and the zero
bits 7:1 of the returned bytes its decision D8 (log entries 10, 11); the fault row is its decisions D12 and D14 (log entries
4, 27). -/
def Obligations.ControllerFollowsTheTransitionTable : Prop :=
  ∀ s : State, PadInv s.pad →
    ((∃ c, c ≤ 8 ∧ padView s.pad = (.shifting, true, c)) ∨ padView s.pad = (.latching, false, 0)) ∧
    (∀ v c, ∃ t, exec (.padw v) s = .next t ∧
      (padView s.pad = (.shifting, true, c) → v.getLsbD 0 = true → padView t.pad = (.shifting, true, c)) ∧
      (padView s.pad = (.shifting, true, c) → v.getLsbD 0 = false → padView t.pad = (.latching, false, 0)) ∧
      (padView s.pad = (.latching, false, 0) → v.getLsbD 0 = false → padView t.pad = (.latching, false, 0)) ∧
      (padView s.pad = (.latching, false, 0) → v.getLsbD 0 = true → padView t.pad = (.shifting, true, 0))) ∧
    (∀ c, ∃ t, exec .padr s = .next t ∧
      (∀ x, padView s.pad = (.shifting, true, c) → (readOrder s.btn)[c]? = some x →
        padView t.pad = (.shifting, true, c + 1) ∧ t.returned = s.returned ++ [.busData (bitByte x)]) ∧
      (padView s.pad = (.shifting, true, 8) →
        padView t.pad = (.shifting, true, 8) ∧ t.returned = s.returned ++ [.busData 0x01]) ∧
      (padView s.pad = (.latching, false, 0) →
        padView t.pad = (.latching, false, 0) ∧ t.returned = s.returned ++ [.busData (bitByte s.btn.a)])) ∧
    (∀ i t, (IsDmaOp i ∨ ∃ m, i = .setbtn m) → exec i s = .next t → t.pad = s.pad) ∧
    (∀ i, IsFaultOp i → ∃ info left, exec i s = .fault (.unsupportedAddress info left) ∧ left.pad = s.pad ∧
      left.fault.isSome = true)

/-- 41_controller.md section 7 (R77, R78, marked derived): after every PADW the mode is decided by the bit written, and the
cursor is 0 after every rising edge; in every state with the device's invariant. -/
def Obligations.ModeFollowsTheLastWrittenBit : Prop :=
  ∀ (v : Byte) (s t : State), PadInv s.pad → exec (.padw v) s = .next t →
    (t.pad.mode = .latching ↔ v.getLsbD 0 = false) ∧
    (s.pad.ctrl.getLsbD 0 = false → v.getLsbD 0 = true → t.pad.cursor = 0) ∧ PadInv t.pad

/-- 41_controller.md section 7 (R80, marked derived) and 30_encoding.md section 4 (R59): REARM and LATCH from EVERY state, with
any bytes of those bits 0. The script notation is the spec's decision D17. -/
def Obligations.RearmAndLatchWorkFromAnyState : Prop :=
  ∀ (a b c : Byte) (s : State), a.getLsbD 0 = true → b.getLsbD 0 = false → c.getLsbD 0 = true →
    execAll [.padw a, .padw b] s = .next { s with pad := { ctrl := b, mode := .latching, cursor := 0 } } ∧
    execAll [.padw a, .padw b, .padw c] s = .next { s with pad := { ctrl := c, mode := .shifting, cursor := 0 } } ∧
    (s.addrs.Distinct →
      execLines (pseudoLines .latch) s = .next { s with pad := { ctrl := 0x00, mode := .latching, cursor := 0 } } ∧
      execLines (pseudoLines .rearm) s = .next { s with pad := { ctrl := 0x01, mode := .shifting, cursor := 0 } })

/-- 41_controller.md section 7 (R79, marked derived): in Shifting mode each read returns the button as the inputs are at THAT
read, however they change between reads. The zero bits 7:1 are the spec's decision D8, the mask's packing its decision D9. -/
def Obligations.ShiftingReadsSampleLive : Prop :=
  ∀ (ms : List Byte) (s : State), s.pad.mode = .shifting → s.pad.cursor + ms.length ≤ 8 →
    ∃ t, execAll (ms.flatMap fun m => [.setbtn m, .padr]) s = .next t ∧
      t.pad = { s.pad with cursor := s.pad.cursor + ms.length } ∧
      t.returned = s.returned ++
        (ms.zipIdx s.pad.cursor).map fun e => .busData (bitByte (e.1.getLsbD e.2))

/-- 95_test_vectors.md E4, 41_controller.md section 7: while latching, every read returns button A as it is at that read, and
nothing moves. The zero bits 7:1 are the spec's decision D8, the mask's packing its decision D9. -/
def Obligations.LatchingReadsTrackButtonA : Prop :=
  ∀ (ms : List Byte) (s : State), s.pad.mode = .latching →
    ∃ t, execAll (ms.flatMap fun m => [.setbtn m, .padr]) s = .next t ∧ t.pad = s.pad ∧
      t.returned = s.returned ++ ms.map fun m => .busData (bitByte (m.getLsbD 0))

/-- 41_controller.md section 3 and 70_reset_and_hazards.md section 3: once exhausted, every read returns 0x01 and the device
does not move, through any operations but a PADW. The value is the spec's decision D6 (log entry 10). -/
def Obligations.ExhaustedReadsReturnOne : Prop :=
  ∀ (is : List Instr) (s t : State), s.pad.mode = .shifting → s.pad.cursor = 8 → (∀ i ∈ is, ∀ v, i ≠ .padw v) →
    execAll is s = .next t →
    t.pad = s.pad ∧ ∃ vs, t.returned = s.returned ++ vs ∧
      vs.filterMap busByte = List.replicate (is.count .padr) 0x01

/-- 41_controller.md section 7 (R81, marked derived): the machine whose cursor grows without bound gives the same outcomes,
the same returned values among them; only the cursor itself differs. Both machines return whole bytes with the exhausted value
0x01, the spec's decision D6, and bits 7:1 zero, its decision D8 (log entries 10, 11). It compares two runs under ONE
environment, which answers MemRead alike at equal counts: the model's choice, log entry 6. -/
def Obligations.SaturationIsUnobservable : Prop :=
  ∀ (is : List Instr) (u : State),
    match execAllUnbounded is u with
    | .next v => execAll is (saturate u) = .next (saturate v)
    | .fault (.unsupportedAddress info left) =>
      execAll is (saturate u) = .fault (.unsupportedAddress info (saturate left))
    | .refused _ => False

/-- 41_controller.md section 7 (R82, marked derived): two runs whose written control bytes and stored control byte differ in
bits 7:1 only give the same outcomes, and the same state but for those bits. It compares two runs under ONE environment, which
answers MemRead alike at equal counts (the external accesses are part of the state): the model's choice, log entry 6, unsafe
across two runs. -/
def Obligations.ControlBitsSevenToOneAreUnobservable : Prop :=
  ∀ (is js : List Instr) (s u : State), is.map eraseInstr = js.map eraseInstr → eraseState s = eraseState u →
    match execAll is s, execAll js u with
    | .next t, .next v => eraseState t = eraseState v ∧ t.returned = v.returned
    | .fault (.unsupportedAddress x l), .fault (.unsupportedAddress y m) => x = y ∧ eraseState l = eraseState m
    | _, _ => False

/-! ## Faults, dispatch and independence -/

/-- 41_controller.md section 4: PAD2R always stops with the fault, at the model's `ADDR_PAD2`; only `core.fault` differs in the
state it leaves. That the port is not implemented is the spec's decision D14, what the fault leaves its decision D12. -/
def Obligations.PadTwoReadAlwaysFaults : Prop :=
  ∀ s : State, ∃ left,
    exec .pad2r s = .fault (.unsupportedAddress { rw := .read, addr := s.addrs.pad2 } left) ∧
    left = { s with fault := left.fault } ∧
    (s.fault = none → left.fault = some { rw := .read, addr := s.addrs.pad2 }) ∧
    (∀ f, s.fault = some f → left.fault = some f)

/-- 42_bus_dispatch.md section of R85: a write to any address but the two claimed ones is BUSW.UNSUP, and that always stops
with the fault whatever the data and the state; only `core.fault` differs in the state it leaves. That ADDR_PAD2 is among them
is the spec's decision D13, what the fault leaves its decision D12. -/
def Obligations.UnclaimedWriteAlwaysFaults : Prop :=
  ∀ (addr : Addr) (data : Byte) (s : State),
    (addr ≠ s.addrs.oamdma → addr ≠ s.addrs.pad1 → select s.addrs (.bw addr data) = .buswUnsup addr data) ∧
    (s.addrs.Distinct → select s.addrs (.bw s.addrs.pad2 data) = .buswUnsup s.addrs.pad2 data) ∧
    (encode s.addrs (.buswUnsup addr data)).toNat = 0x10000000 + addr.toNat * 2 ^ 8 + data.toNat ∧
    ∃ left, exec (.buswUnsup addr data) s = .fault (.unsupportedAddress { rw := .write, addr := addr } left) ∧
      left = { s with fault := left.fault } ∧ (s.fault = none → left.fault = some { rw := .write, addr := addr })

/-- 42_bus_dispatch.md section of R86: a read of any address but ADDR_PAD1 and ADDR_PAD2 is BUSR.UNSUP, and that always stops
with the fault; no data is returned and no device moves. That ADDR_OAMDMA is among them is the spec's decision D13, what the
fault leaves its decision D12. -/
def Obligations.UnclaimedReadAlwaysFaults : Prop :=
  ∀ (addr : Addr) (s : State),
    (addr ≠ s.addrs.pad1 → addr ≠ s.addrs.pad2 → select s.addrs (.br addr) = .busrUnsup addr) ∧
    (s.addrs.Distinct → select s.addrs (.br s.addrs.oamdma) = .busrUnsup s.addrs.oamdma) ∧
    (encode s.addrs (.busrUnsup addr)).toNat = 0x20000000 + addr.toNat * 2 ^ 8 ∧
    ∃ left, exec (.busrUnsup addr) s = .fault (.unsupportedAddress { rw := .read, addr := addr } left) ∧
      left = { s with fault := left.fault } ∧ (s.fault = none → left.fault = some { rw := .read, addr := addr })

/-- 60_exceptions.md R90: which operations raise the fault, with what information; the other six never do and answer a next
state; the condition and the information depend on no data and no state beyond the address parameters. -/
def Obligations.ExactlyThreeOperationsFault : Prop :=
  ∀ (i : Instr) (s : State),
    (IsFaultOp i → ∃ info left, exec i s = .fault (.unsupportedAddress info left) ∧
      (i = .pad2r → info = { rw := .read, addr := s.addrs.pad2 }) ∧
      (∀ addr data, i = .buswUnsup addr data → info = { rw := .write, addr := addr }) ∧
      (∀ addr, i = .busrUnsup addr → info = { rw := .read, addr := addr })) ∧
    (¬ IsFaultOp i → ∃ t, exec i s = .next t) ∧
    (∀ u : State, (∃ f, exec i s = .fault f) ↔ (∃ f, exec i u = .fault f))

/-- 42_bus_dispatch.md section of R87, 60_exceptions.md sections 1 and 4: a fault leaves everything but `core.fault` as it was,
it keeps the first fault, its cause code is 1, and no operation clears it. These are the spec's decisions D12 and D13. -/
def Obligations.FaultIsPreciseAndSticky : Prop :=
  ∀ (i : Instr) (s : State),
    (∀ info left, exec i s = .fault (.unsupportedAddress info left) →
      left = { s with fault := some (s.fault.getD info) } ∧ faultCode left = 1) ∧
    (∀ t, exec i s = .next t → t.fault = s.fault ∧ faultCode t = faultCode s)

/-- 42_bus_dispatch.md section of R88 (marked derived): of all bus accesses, exactly three (direction, address) pairs have an
effect other than the fault. That reads of ADDR_OAMDMA and ADDR_PAD2 fault are the spec's decisions D13 and D14. -/
def Obligations.ExactlyThreeBusAccessesAreAccepted : Prop :=
  ∀ s : State,
    (∀ addr data, (∃ t, exec (select s.addrs (.bw addr data)) s = .next t) ↔
      addr = s.addrs.oamdma ∨ addr = s.addrs.pad1) ∧
    (∀ addr, (∃ t, exec (select s.addrs (.br addr)) s = .next t) ↔ addr = s.addrs.pad1) ∧
    (∀ r, (∀ addr data, r ≠ .bw addr data) → (∀ addr, r ≠ .br addr) → ∃ t, exec (select s.addrs r) s = .next t)

/-- 42_bus_dispatch.md section of R88 and 70_reset_and_hazards.md section 4 (R117), both marked derived: from EVERY state with
no fault recorded and only claimed accesses issued, no run ever faults or is refused, and the n-th step has performed the n-th
request. -/
def Obligations.ClaimedRequestsNeverFault : Prop :=
  ∀ (n : Nat) (s : State), s.Safe →
    ∃ t : State, Sys2Proof.core.run n s = .next t ∧ t.Safe ∧ t.requests = s.requests.drop n

/-- 00_scope.md section 1 (the rule of R2): no operation of one component reads or writes state of the other. That OAMDMA
reads and pushes the same bytes whatever the Controller Device and the buttons hold rests on log entry 6, the model's choice:
the two runs stand under ONE environment, which answers MemRead alike at equal counts; unsafe across two runs. -/
def Obligations.ComponentsAreIndependent : Prop :=
  ∀ (i : Instr) (s : State),
    (IsDmaOp i → ∃ t, exec i s = .next t ∧ t.pad = s.pad ∧ t.btn = s.btn ∧
      ∀ q b, exec i { s with pad := q, btn := b } = .next { t with pad := q, btn := b }) ∧
    (IsPadOp i → ∃ t, exec i s = .next t ∧ t.dma = s.dma ∧
      ∀ d, exec i { s with dma := d } = .next { t with dma := d }) ∧
    (i = .pad2r → ∃ info left, exec i s = .fault (.unsupportedAddress info left) ∧ left.dma = s.dma ∧
      ∀ d, exec i { s with dma := d } = .fault (.unsupportedAddress info { left with dma := d }))

/-! ## Pseudo-operations -/

/-- 30_encoding.md section 4 (R59, marked as the spec's decision D17): DMA returns the charge and the audio cycles; PRESS
presses exactly the named buttons. -/
def Obligations.DmaAndPressPseudoOperations : Prop :=
  ∀ s : State, s.addrs.Distinct →
    (∀ page parity, ∃ t, execLines (pseudoLines (.dma page parity)) s = .next t ∧
      t.returned = s.returned ++ [.stolenCycles (513 + parity % 2 + s.dma.audioCycles)] ∧
      t.dma = { audioCycles := 0, oamPending := false }) ∧
    (∀ held, ∃ t, execLines (pseudoLines (.press held)) s = .next t ∧ t = { s with btn := t.btn } ∧
      ∀ x, pressed t.btn x = true ↔ x ∈ held)
end

