-- ==== Sys2Proof/Laws/State.lean ====
section
/-! SUPPORT. One lemma per field per update of State, so that no later proof unfolds a record update. -/

namespace Sys2Proof.Machine

/-! setDma -/

@[simp] theorem State.setDma_dma (s : State) (d : Dma) : (s.setDma d).dma = d := rfl
@[simp] theorem State.setDma_pad (s : State) (d : Dma) : (s.setDma d).pad = s.pad := rfl
@[simp] theorem State.setDma_fault (s : State) (d : Dma) : (s.setDma d).fault = s.fault := rfl
@[simp] theorem State.setDma_btn (s : State) (d : Dma) : (s.setDma d).btn = s.btn := rfl
@[simp] theorem State.setDma_addrs (s : State) (d : Dma) : (s.setDma d).addrs = s.addrs := rfl
@[simp] theorem State.setDma_mem (s : State) (d : Dma) : (s.setDma d).mem = s.mem := rfl
@[simp] theorem State.setDma_reads (s : State) (d : Dma) : (s.setDma d).reads = s.reads := rfl
@[simp] theorem State.setDma_accesses (s : State) (d : Dma) : (s.setDma d).accesses = s.accesses := rfl
@[simp] theorem State.setDma_returned (s : State) (d : Dma) : (s.setDma d).returned = s.returned := rfl
@[simp] theorem State.setDma_requests (s : State) (d : Dma) : (s.setDma d).requests = s.requests := rfl

/-! setPad -/

@[simp] theorem State.setPad_dma (s : State) (q : Pad) : (s.setPad q).dma = s.dma := rfl
@[simp] theorem State.setPad_pad (s : State) (q : Pad) : (s.setPad q).pad = q := rfl
@[simp] theorem State.setPad_fault (s : State) (q : Pad) : (s.setPad q).fault = s.fault := rfl
@[simp] theorem State.setPad_btn (s : State) (q : Pad) : (s.setPad q).btn = s.btn := rfl
@[simp] theorem State.setPad_addrs (s : State) (q : Pad) : (s.setPad q).addrs = s.addrs := rfl
@[simp] theorem State.setPad_mem (s : State) (q : Pad) : (s.setPad q).mem = s.mem := rfl
@[simp] theorem State.setPad_reads (s : State) (q : Pad) : (s.setPad q).reads = s.reads := rfl
@[simp] theorem State.setPad_accesses (s : State) (q : Pad) : (s.setPad q).accesses = s.accesses := rfl
@[simp] theorem State.setPad_returned (s : State) (q : Pad) : (s.setPad q).returned = s.returned := rfl
@[simp] theorem State.setPad_requests (s : State) (q : Pad) : (s.setPad q).requests = s.requests := rfl

/-! setFault -/

@[simp] theorem State.setFault_dma (s : State) (f : Option BusAccess) : (s.setFault f).dma = s.dma := rfl
@[simp] theorem State.setFault_pad (s : State) (f : Option BusAccess) : (s.setFault f).pad = s.pad := rfl
@[simp] theorem State.setFault_fault (s : State) (f : Option BusAccess) : (s.setFault f).fault = f := rfl
@[simp] theorem State.setFault_btn (s : State) (f : Option BusAccess) : (s.setFault f).btn = s.btn := rfl
@[simp] theorem State.setFault_addrs (s : State) (f : Option BusAccess) : (s.setFault f).addrs = s.addrs := rfl
@[simp] theorem State.setFault_mem (s : State) (f : Option BusAccess) : (s.setFault f).mem = s.mem := rfl
@[simp] theorem State.setFault_reads (s : State) (f : Option BusAccess) : (s.setFault f).reads = s.reads := rfl
@[simp] theorem State.setFault_accesses (s : State) (f : Option BusAccess) : (s.setFault f).accesses = s.accesses := rfl
@[simp] theorem State.setFault_returned (s : State) (f : Option BusAccess) : (s.setFault f).returned = s.returned := rfl
@[simp] theorem State.setFault_requests (s : State) (f : Option BusAccess) : (s.setFault f).requests = s.requests := rfl

/-! setBtn -/

@[simp] theorem State.setBtn_dma (s : State) (b : Buttons) : (s.setBtn b).dma = s.dma := rfl
@[simp] theorem State.setBtn_pad (s : State) (b : Buttons) : (s.setBtn b).pad = s.pad := rfl
@[simp] theorem State.setBtn_fault (s : State) (b : Buttons) : (s.setBtn b).fault = s.fault := rfl
@[simp] theorem State.setBtn_btn (s : State) (b : Buttons) : (s.setBtn b).btn = b := rfl
@[simp] theorem State.setBtn_addrs (s : State) (b : Buttons) : (s.setBtn b).addrs = s.addrs := rfl
@[simp] theorem State.setBtn_mem (s : State) (b : Buttons) : (s.setBtn b).mem = s.mem := rfl
@[simp] theorem State.setBtn_reads (s : State) (b : Buttons) : (s.setBtn b).reads = s.reads := rfl
@[simp] theorem State.setBtn_accesses (s : State) (b : Buttons) : (s.setBtn b).accesses = s.accesses := rfl
@[simp] theorem State.setBtn_returned (s : State) (b : Buttons) : (s.setBtn b).returned = s.returned := rfl
@[simp] theorem State.setBtn_requests (s : State) (b : Buttons) : (s.setBtn b).requests = s.requests := rfl

/-! setReads -/

@[simp] theorem State.setReads_dma (s : State) (n : Nat) : (s.setReads n).dma = s.dma := rfl
@[simp] theorem State.setReads_pad (s : State) (n : Nat) : (s.setReads n).pad = s.pad := rfl
@[simp] theorem State.setReads_fault (s : State) (n : Nat) : (s.setReads n).fault = s.fault := rfl
@[simp] theorem State.setReads_btn (s : State) (n : Nat) : (s.setReads n).btn = s.btn := rfl
@[simp] theorem State.setReads_addrs (s : State) (n : Nat) : (s.setReads n).addrs = s.addrs := rfl
@[simp] theorem State.setReads_mem (s : State) (n : Nat) : (s.setReads n).mem = s.mem := rfl
@[simp] theorem State.setReads_reads (s : State) (n : Nat) : (s.setReads n).reads = n := rfl
@[simp] theorem State.setReads_accesses (s : State) (n : Nat) : (s.setReads n).accesses = s.accesses := rfl
@[simp] theorem State.setReads_returned (s : State) (n : Nat) : (s.setReads n).returned = s.returned := rfl
@[simp] theorem State.setReads_requests (s : State) (n : Nat) : (s.setReads n).requests = s.requests := rfl

/-! setRequests -/

@[simp] theorem State.setRequests_dma (s : State) (l : List Request) : (s.setRequests l).dma = s.dma := rfl
@[simp] theorem State.setRequests_pad (s : State) (l : List Request) : (s.setRequests l).pad = s.pad := rfl
@[simp] theorem State.setRequests_fault (s : State) (l : List Request) : (s.setRequests l).fault = s.fault := rfl
@[simp] theorem State.setRequests_btn (s : State) (l : List Request) : (s.setRequests l).btn = s.btn := rfl
@[simp] theorem State.setRequests_addrs (s : State) (l : List Request) : (s.setRequests l).addrs = s.addrs := rfl
@[simp] theorem State.setRequests_mem (s : State) (l : List Request) : (s.setRequests l).mem = s.mem := rfl
@[simp] theorem State.setRequests_reads (s : State) (l : List Request) : (s.setRequests l).reads = s.reads := rfl
@[simp] theorem State.setRequests_accesses (s : State) (l : List Request) : (s.setRequests l).accesses = s.accesses := rfl
@[simp] theorem State.setRequests_returned (s : State) (l : List Request) : (s.setRequests l).returned = s.returned := rfl
@[simp] theorem State.setRequests_requests (s : State) (l : List Request) : (s.setRequests l).requests = l := rfl

/-! logAccess -/

@[simp] theorem State.logAccess_dma (s : State) (x : Access) : (s.logAccess x).dma = s.dma := rfl
@[simp] theorem State.logAccess_pad (s : State) (x : Access) : (s.logAccess x).pad = s.pad := rfl
@[simp] theorem State.logAccess_fault (s : State) (x : Access) : (s.logAccess x).fault = s.fault := rfl
@[simp] theorem State.logAccess_btn (s : State) (x : Access) : (s.logAccess x).btn = s.btn := rfl
@[simp] theorem State.logAccess_addrs (s : State) (x : Access) : (s.logAccess x).addrs = s.addrs := rfl
@[simp] theorem State.logAccess_mem (s : State) (x : Access) : (s.logAccess x).mem = s.mem := rfl
@[simp] theorem State.logAccess_reads (s : State) (x : Access) : (s.logAccess x).reads = s.reads := rfl
@[simp] theorem State.logAccess_accesses (s : State) (x : Access) : (s.logAccess x).accesses = s.accesses ++ [x] := rfl
@[simp] theorem State.logAccess_returned (s : State) (x : Access) : (s.logAccess x).returned = s.returned := rfl
@[simp] theorem State.logAccess_requests (s : State) (x : Access) : (s.logAccess x).requests = s.requests := rfl

/-! give -/

@[simp] theorem State.give_dma (s : State) (v : Returned) : (s.give v).dma = s.dma := rfl
@[simp] theorem State.give_pad (s : State) (v : Returned) : (s.give v).pad = s.pad := rfl
@[simp] theorem State.give_fault (s : State) (v : Returned) : (s.give v).fault = s.fault := rfl
@[simp] theorem State.give_btn (s : State) (v : Returned) : (s.give v).btn = s.btn := rfl
@[simp] theorem State.give_addrs (s : State) (v : Returned) : (s.give v).addrs = s.addrs := rfl
@[simp] theorem State.give_mem (s : State) (v : Returned) : (s.give v).mem = s.mem := rfl
@[simp] theorem State.give_reads (s : State) (v : Returned) : (s.give v).reads = s.reads := rfl
@[simp] theorem State.give_accesses (s : State) (v : Returned) : (s.give v).accesses = s.accesses := rfl
@[simp] theorem State.give_returned (s : State) (v : Returned) : (s.give v).returned = s.returned ++ [v] := rfl
@[simp] theorem State.give_requests (s : State) (v : Returned) : (s.give v).requests = s.requests := rfl

end Sys2Proof.Machine
end

