-- ==== Sys2Proof/Laws/Ops.lean ====
section
/-! SUPPORT. One lemma per shared operation, saying all it does: MemRead and OamPush, the copy loop, the fault, taking the
next request. -/

namespace Sys2Proof.Machine

/-- A read of an address the environment has fixed answers that byte, whichever read it is. -/
theorem memAnswer_listed {m : Memory} {addr : Addr} {v : Byte} (n : Nat) (h : Memory.lookup m addr.toNat = some v) :
    memAnswer m n addr = v := by
  simp [memAnswer, h]

theorem memReadEffect_eq (s : State) (addr : Addr) :
    memReadEffect s addr =
      { s with reads := s.reads + 1, accesses := s.accesses ++ [.memRead addr (memAnswer s.mem s.reads addr)] } := rfl

theorem oamPush_eq (s : State) (k : Nat) (v : Byte) :
    oamPush s k v = { s with accesses := s.accesses ++ [.oamPush k v] } := rfl

/-- The source address of offset k does not wrap. -/
theorem sourceAddr_toNat (page : Byte) {k : Nat} (h : k < 256) : (sourceAddr page k).toNat = page.toNat * 256 + k := by
  have := page.isLt
  simp [sourceAddr, Config.pageSize]
  omega

/-- One turn of the copy loop: one read, one push of the byte read, nothing else. -/
theorem copyByte_eq (page : Byte) (k : Nat) (s : State) :
    copyByte page k s =
      { s with
        reads := s.reads + 1
        accesses := s.accesses ++ [.memRead (sourceAddr page k) (memAnswer s.mem s.reads (sourceAddr page k)),
          .oamPush k (memAnswer s.mem s.reads (sourceAddr page k))] } := by
  simp [copyByte, memReadEffect_eq, oamPush_eq, memReadValue]

/-- `n` turns of the copy loop from offset `k`: reads and pushes in turn, each push the byte just read, nothing else. -/
theorem copyFrom_eq (page : Byte) (n k : Nat) (s : State) :
    copyFrom page n k s =
      { s with
        reads := s.reads + n
        accesses := s.accesses ++ (List.range n).flatMap fun j =>
          [.memRead (sourceAddr page (k + j)) (memAnswer s.mem (s.reads + j) (sourceAddr page (k + j))),
           .oamPush (k + j) (memAnswer s.mem (s.reads + j) (sourceAddr page (k + j)))] } := by
  induction n generalizing k s with
  | zero => simp [copyFrom]
  | succ n ih =>
    rw [copyFrom, ih, copyByte_eq]
    simp only [List.range_succ_eq_map, List.flatMap_cons, List.flatMap_map, List.append_assoc, Nat.add_zero,
      State.mk.injEq, true_and, and_true]
    refine ⟨by omega, ?_⟩
    simp [Nat.add_assoc, Nat.add_comm 1, Nat.succ_eq_add_one]

/-- The sink receives the bytes of the pushes, in order; reads are not pushes. -/
@[simp] theorem sinkTrace_nil : sinkTrace [] = [] := rfl

@[simp] theorem sinkTrace_append (l l' : List Access) : sinkTrace (l ++ l') = sinkTrace l ++ sinkTrace l' := by
  simp [sinkTrace]

@[simp] theorem sinkTrace_memRead (addr : Addr) (v : Byte) (l : List Access) :
    sinkTrace (.memRead addr v :: l) = sinkTrace l := rfl

@[simp] theorem sinkTrace_oamPush (k : Nat) (v : Byte) (l : List Access) :
    sinkTrace (.oamPush k v :: l) = v :: sinkTrace l := rfl

/-- The state a fault leaves: only `core.fault` differs, and only if it was none. -/
theorem recordFault_eq (s : State) (info : BusAccess) :
    recordFault s info = { s with fault := some (s.fault.getD info) } := by
  cases s with
  | mk dma pad fault => cases fault <;> rfl

/-- What raising the fault answers. -/
theorem raiseUnsupported_eq (rw_ : Rw) (addr : Addr) (s : State) :
    raiseUnsupported rw_ addr s =
      .fault (.unsupportedAddress { rw := rw_, addr := addr }
        { s with fault := some (s.fault.getD { rw := rw_, addr := addr }) }) := by
  simp [raiseUnsupported, recordFault_eq]

theorem fetch_of_fault {s : State} {f : BusAccess} (h : s.fault = some f) : fetch s = .stopped := by
  simp [fetch, h]

theorem fetch_of_idle {s : State} (hf : s.fault = none) (h : s.requests = []) : fetch s = .idle := by
  simp [fetch, hf, h]

theorem fetch_of_request {s : State} {q : Request} {rest : List Request} (hf : s.fault = none)
    (h : s.requests = q :: rest) :
    fetch s = match decodeRequest s.addrs q with
      | .ok i => .operation i (s.setRequests rest)
      | .error r => .rejected r := by
  cases hd : decodeRequest s.addrs q <;> simp [fetch, hf, h, hd]

/-- Every way the block can find an operation to perform. -/
theorem fetch_operation {s t : State} {i : Instr} (h : fetch s = .operation i t) :
    s.fault = none ∧ ∃ q rest, s.requests = q :: rest ∧ decodeRequest s.addrs q = .ok i ∧ t = s.setRequests rest := by
  cases hf : s.fault with
  | some f => simp [fetch_of_fault hf] at h
  | none =>
    cases hq : s.requests with
    | nil => simp [fetch_of_idle hf hq] at h
    | cons q rest =>
      rw [fetch_of_request hf hq] at h
      cases hd : decodeRequest s.addrs q with
      | error r => simp [hd] at h
      | ok j =>
        simp only [hd, Fetched.operation.injEq] at h
        exact ⟨rfl, q, rest, rfl, by rw [← h.1, hd], h.2.symm⟩

end Sys2Proof.Machine
end

