-- ==== Sys2Proof/Laws/Controller.lean ====
section
/-! SUPPORT. The Controller Device's shared operations: operand bits, the edge, what a write and a read do to the device. -/

namespace Sys2Proof.Machine

/-- A read result is always 0x00 or 0x01 (30_encoding.md R51). -/
theorem zext8_cases (b : Bool) : zext8 b = 0x00 ∨ zext8 b = 0x01 := by
  cases b <;> simp [zext8]

/-- Bit i of a mask is `btn[i]` (30_encoding.md R54). -/
@[simp] theorem btnBit_ofMask (m : Byte) (i : Fin 8) : btnBit (buttonsOfMask m) i = m.getLsbD i := by
  revert i
  rw [Fin.forall_fin_succ]
  simp only [Fin.forall_fin_succ, btnBit, pressed, buttonAt, buttonsOfMask]
  simp

/-- The three writes (41_controller.md R72): the stored byte is always the one written; a falling edge enters Latching and
zeroes the cursor, a rising edge enters Shifting, no edge changes neither. -/
theorem padAfterWrite_cases (q : Pad) (v : Byte) :
    (strobe q.ctrl = true ∧ strobe v = false ∧ padAfterWrite q v = { ctrl := v, mode := .latching, cursor := 0 }) ∨
    (strobe q.ctrl = false ∧ strobe v = true ∧ padAfterWrite q v = { ctrl := v, mode := .shifting, cursor := q.cursor }) ∨
    (strobe q.ctrl = strobe v ∧ padAfterWrite q v = { ctrl := v, mode := q.mode, cursor := q.cursor }) := by
  cases ho : strobe q.ctrl <;> cases hn : strobe v <;> simp [padAfterWrite, edgeOf, ho, hn]

/-- The whole byte is stored, whatever the edge. -/
@[simp] theorem padAfterWrite_ctrl (q : Pad) (v : Byte) : (padAfterWrite q v).ctrl = v := by
  rcases padAfterWrite_cases q v with ⟨_, _, h⟩ | ⟨_, _, h⟩ | ⟨_, h⟩ <;> rw [h]

theorem padAfterWrite_falling {q : Pad} {v : Byte} (ho : strobe q.ctrl = true) (hn : strobe v = false) :
    padAfterWrite q v = { ctrl := v, mode := .latching, cursor := 0 } := by
  simp [padAfterWrite, edgeOf, ho, hn]

theorem padAfterWrite_rising {q : Pad} {v : Byte} (ho : strobe q.ctrl = false) (hn : strobe v = true) :
    padAfterWrite q v = { ctrl := v, mode := .shifting, cursor := q.cursor } := by
  simp [padAfterWrite, edgeOf, ho, hn]

theorem padAfterWrite_unchanged {q : Pad} {v : Byte} (h : strobe q.ctrl = strobe v) :
    padAfterWrite q v = { ctrl := v, mode := q.mode, cursor := q.cursor } := by
  cases hn : strobe v <;> simp [padAfterWrite, edgeOf, h, hn]

/-- The three reads (41_controller.md R73). -/
theorem padRead_cases (q : Pad) (b : Buttons) :
    (q.mode = .latching ∧ padReadValue q b = zext8 (btnBit b 0) ∧ padAfterRead q = q) ∨
    (q.mode = .shifting ∧ ∃ h : q.cursor < 8,
      padReadValue q b = zext8 (btnBit b ⟨q.cursor, h⟩) ∧ padAfterRead q = { q with cursor := q.cursor + 1 }) ∨
    (q.mode = .shifting ∧ 8 ≤ q.cursor ∧ padReadValue q b = Config.padExhaustedValue ∧ padAfterRead q = q) := by
  cases hm : q.mode with
  | latching => simp [padReadValue, padAfterRead, hm]
  | shifting =>
    by_cases h : q.cursor < 8
    · simp [padReadValue, padAfterRead, hm, h, Config.cursorMax]
    · simp [padReadValue, padAfterRead, hm, h, Config.cursorMax, Nat.le_of_not_lt h]

end Sys2Proof.Machine
end

