-- ==== Sys2Proof/Laws/Decode.lean ====
section
/-! SUPPORT. The fields of a packed word as numbers, the number of each packed record, and the selection of an operation by its
address. -/

namespace Sys2Proof

theorem append_toNat {m n : Nat} (x : BitVec m) (y : BitVec n) : (x ++ y).toNat = x.toNat * 2 ^ n + y.toNat := by
  rw [BitVec.toNat_append, ← Nat.shiftLeft_add_eq_or_of_lt y.isLt, Nat.shiftLeft_eq]

/-! The number of each packed record (30_encoding.md R48). -/

theorem pack_bw_toNat (addr : Addr) (data : Byte) :
    (pack (.bw addr data)).toNat = 0x10000000 + addr.toNat * 256 + data.toNat := by
  show (0x1#4 ++ 0x0#4 ++ addr ++ data).toNat = _
  simp only [append_toNat]
  simp
  omega

theorem pack_br_toNat (addr : Addr) : (pack (.br addr)).toNat = 0x20000000 + addr.toNat * 256 := by
  show (0x2#4 ++ 0x0#4 ++ addr ++ 0x00#8).toNat = _
  simp only [append_toNat]
  simp
  omega

theorem pack_aa_toNat (cycles : Nat) : (pack (.aa cycles)).toNat = 0x30000000 + cycles % 2 ^ 28 := by
  show (0x3#4 ++ BitVec.ofNat 28 cycles).toNat = _
  simp only [append_toNat]
  simp

theorem pack_dr_toNat (parity : Nat) : (pack (.dr parity)).toNat = 0x40000000 + parity % 2 ^ 28 := by
  show (0x4#4 ++ BitVec.ofNat 28 parity).toNat = _
  simp only [append_toNat]
  simp

theorem pack_sb_toNat (mask : Byte) : (pack (.sb mask)).toNat = 0x50000000 + mask.toNat := by
  show (0x5#4 ++ 0x00000#20 ++ mask).toNat = _
  simp only [append_toNat]
  simp

/-! The fields of a packed word. -/

theorem opField_toNat (w : Word) : (opField w).toNat = w.toNat / 2 ^ 28 % 2 ^ 4 := by
  simp [opField, BitVec.extractLsb'_toNat, Nat.shiftRight_eq_div_pow]

theorem zeroField_toNat (w : Word) : (zeroField w).toNat = w.toNat / 2 ^ 24 % 2 ^ 4 := by
  simp [zeroField, BitVec.extractLsb'_toNat, Nat.shiftRight_eq_div_pow]

theorem addrField_toNat (w : Word) : (addrField w).toNat = w.toNat / 2 ^ 8 % 2 ^ 16 := by
  simp [addrField, BitVec.extractLsb'_toNat, Nat.shiftRight_eq_div_pow]

theorem dataField_toNat (w : Word) : (dataField w).toNat = w.toNat % 2 ^ 8 := by
  simp [dataField, BitVec.extractLsb'_toNat]

theorem countField_toNat (w : Word) : (countField w).toNat = w.toNat % 2 ^ 28 := by
  simp [countField, BitVec.extractLsb'_toNat]

theorem buttonZero_toNat (w : Word) : (buttonZero w).toNat = w.toNat / 2 ^ 8 % 2 ^ 20 := by
  simp [buttonZero, BitVec.extractLsb'_toNat, Nat.shiftRight_eq_div_pow]

/-! The masks of the opcode table (opcode_table.json). -/

/-- A mask that keeps the bits from `k` up. -/
theorem and_high_toNat (w : Word) (k : Nat) : (w &&& (BitVec.allOnes 32 <<< k)).toNat = w.toNat / 2 ^ k * 2 ^ k := by
  have : w &&& (BitVec.allOnes 32 <<< k) = (w >>> k) <<< k := by
    ext i hi
    simp only [BitVec.getElem_and, BitVec.getElem_shiftLeft, BitVec.getElem_allOnes, BitVec.getElem_ushiftRight]
    by_cases h : i < k
    · simp [h]
    · have : k + (i - k) = i := by omega
      simp [h, this, hi]
  rw [this, BitVec.toNat_shiftLeft, BitVec.toNat_ushiftRight, Nat.shiftLeft_eq, Nat.shiftRight_eq_div_pow]
  exact Nat.mod_eq_of_lt (Nat.lt_of_le_of_lt (Nat.div_mul_le_self _ _) w.isLt)

theorem mask_high24_toNat (w : Word) : (w &&& 0xFFFFFF00#32).toNat = w.toNat / 256 * 256 :=
  and_high_toNat w 8

theorem mask_high8_toNat (w : Word) : (w &&& 0xFF000000#32).toNat = w.toNat / 2 ^ 24 * 2 ^ 24 :=
  and_high_toNat w 24

theorem mask_high4_toNat (w : Word) : (w &&& 0xF0000000#32).toNat = w.toNat / 2 ^ 28 * 2 ^ 28 :=
  and_high_toNat w 28

/-- The mask of the BUSR.UNSUP row keeps bits 31:24 and 7:0. -/
theorem mask_ends_toNat (w : Word) : (w &&& 0xFF0000FF#32).toNat = w.toNat / 2 ^ 24 * 2 ^ 24 + w.toNat % 256 := by
  have split : w &&& 0xFF0000FF#32 = (w &&& 0xFF000000#32) ||| (w &&& 0xFF#32) := by
    rw [← BitVec.and_or_distrib_left]
    rfl
  have low : w.toNat &&& (0xFF#32).toNat = w.toNat % 256 := Nat.and_two_pow_sub_one_eq_mod w.toNat 8
  rw [split, BitVec.toNat_or, mask_high8_toNat, BitVec.toNat_and, low,
    show w.toNat / 2 ^ 24 * 2 ^ 24 = (w.toNat / 2 ^ 24) <<< 24 by rw [Nat.shiftLeft_eq],
    ← Nat.shiftLeft_add_eq_or_of_lt (by omega)]

/-- The number of a bus row's pattern: the format byte and the address (`match_expr` of opcode_table.json). -/
theorem pattern_toNat (x : Word) (addr : Addr) (h : x = 0x10000000#32 ∨ x = 0x20000000#32) :
    (x ||| (addr.setWidth 32 <<< 8)).toNat = x.toNat + addr.toNat * 256 := by
  have ha := addr.isLt
  have e : (addr.setWidth 32 <<< 8).toNat = addr.toNat * 256 := by
    simp [Nat.shiftLeft_eq]
    omega
  rw [BitVec.toNat_or, e]
  rcases h with rfl | rfl
  · have := Nat.shiftLeft_add_eq_or_of_lt (i := 28) (b := addr.toNat * 256) (by omega) 1
    simpa [Nat.shiftLeft_eq] using this.symm
  · have := Nat.shiftLeft_add_eq_or_of_lt (i := 28) (b := addr.toNat * 256) (by omega) 2
    simpa [Nat.shiftLeft_eq] using this.symm

/-! Selection by address (30_encoding.md R55, 42_bus_dispatch.md R83, R84). -/

theorem selectWrite_cases (p : AddrMap) (addr : Addr) (data : Byte) :
    (addr = p.oamdma ∧ selectWrite p addr data = .oamdma data) ∨
    (addr ≠ p.oamdma ∧ addr = p.pad1 ∧ selectWrite p addr data = .padw data) ∨
    (addr ≠ p.oamdma ∧ addr ≠ p.pad1 ∧ selectWrite p addr data = .buswUnsup addr data) := by
  by_cases h₁ : addr = p.oamdma
  · simp [selectWrite, h₁]
  · by_cases h₂ : addr = p.pad1
    · subst h₂
      simp [selectWrite, h₁]
    · simp [selectWrite, h₁, h₂]

theorem selectRead_cases (p : AddrMap) (addr : Addr) :
    (addr = p.pad1 ∧ selectRead p addr = .padr) ∨
    (addr ≠ p.pad1 ∧ addr = p.pad2 ∧ selectRead p addr = .pad2r) ∨
    (addr ≠ p.pad1 ∧ addr ≠ p.pad2 ∧ selectRead p addr = .busrUnsup addr) := by
  by_cases h₁ : addr = p.pad1
  · simp [selectRead, h₁]
  · by_cases h₂ : addr = p.pad2
    · subst h₂
      simp [selectRead, h₁]
    · simp [selectRead, h₁, h₂]

/-- The record of the operation selected for a record is that record. -/
theorem toRecord_select (p : AddrMap) (r : Record) : (select p r).toRecord p = r := by
  cases r with
  | bw addr data => rcases selectWrite_cases p addr data with ⟨rfl, h⟩ | ⟨_, rfl, h⟩ | ⟨_, _, h⟩ <;> simp [select, h, Instr.toRecord]
  | br addr => rcases selectRead_cases p addr with ⟨rfl, h⟩ | ⟨_, rfl, h⟩ | ⟨_, _, h⟩ <;> simp [select, h, Instr.toRecord]
  | aa cycles => rfl
  | dr parity => rfl
  | sb mask => rfl

/-- A selected operation is well formed. -/
theorem select_wf (p : AddrMap) (r : Record) : (select p r).wf p = true := by
  cases r with
  | bw addr data =>
    rcases selectWrite_cases p addr data with ⟨_, h⟩ | ⟨_, _, h⟩ | ⟨h₁, h₂, h⟩ <;> simp [select, h, Instr.wf]
    exact ⟨h₁, h₂⟩
  | br addr =>
    rcases selectRead_cases p addr with ⟨_, h⟩ | ⟨_, _, h⟩ | ⟨h₁, h₂, h⟩ <;> simp [select, h, Instr.wf]
    exact ⟨h₁, h₂⟩
  | aa cycles => rfl
  | dr parity => rfl
  | sb mask => rfl

/-- What a decoded word was. -/
theorem decode_ok {p : AddrMap} {w : Word} {i : Instr} (h : decode p w = .ok i) :
    ∃ r, unpack w = .ok r ∧ i = select p r := by
  unfold decode at h
  cases hu : unpack w with
  | error e => simp [hu] at h
  | ok r => exact ⟨r, rfl, by simpa [hu] using h.symm⟩

end Sys2Proof
end

