-- ==== Sys2Proof/Laws/Exec.lean ====
section
/-! SUPPORT. What one operation can answer, said once: a next state of one of six shapes, or the one fault; and how sequences
of operations compose. -/

namespace Sys2Proof.Machine

/-- The external accesses of one transfer of a page, over memory `m`, after `n₀` answered reads. -/
def transferAccesses (m : Memory) (n₀ : Nat) (page : Byte) : List Access :=
  (List.range 256).flatMap fun k =>
    [.memRead (sourceAddr page k) (memAnswer m (n₀ + k) (sourceAddr page k)),
     .oamPush k (memAnswer m (n₀ + k) (sourceAddr page k))]

theorem exec_oamdma_eq (page : Byte) (s : State) :
    exec (.oamdma page) s = .next
      { s with
        dma := { s.dma with oamPending := true }
        reads := s.reads + 256
        accesses := s.accesses ++ transferAccesses s.mem s.reads page } := by
  simp [exec, execOamdma, copyFrom_eq, State.setDma, transferAccesses, Config.pageSize]

theorem exec_padw_eq (v : Byte) (s : State) :
    exec (.padw v) s = .next { s with pad := padAfterWrite s.pad v } := rfl

theorem exec_padr_eq (s : State) :
    exec .padr s = .next
      { s with pad := padAfterRead s.pad, returned := s.returned ++ [.busData (padReadValue s.pad s.btn)] } := rfl

theorem exec_addaud_eq (cycles : Nat) (s : State) :
    exec (.addaud cycles) s = .next { s with dma := { s.dma with audioCycles := s.dma.audioCycles + cycles } } := rfl

theorem exec_drain_eq (parity : Nat) (s : State) :
    exec (.drain parity) s = .next
      { s with
        dma := dmaDrained
        returned := s.returned ++ [.stolenCycles (s.dma.audioCycles + oamCharge s.dma.oamPending parity)] } := rfl

theorem exec_setbtn_eq (mask : Byte) (s : State) :
    exec (.setbtn mask) s = .next { s with btn := buttonsOfMask mask } := rfl

theorem exec_pad2r_eq (s : State) : exec .pad2r s = raiseUnsupported .read s.addrs.pad2 s := rfl

theorem exec_buswUnsup_eq (addr : Addr) (data : Byte) (s : State) :
    exec (.buswUnsup addr data) s = raiseUnsupported .write addr s := rfl

theorem exec_busrUnsup_eq (addr : Addr) (s : State) :
    exec (.busrUnsup addr) s = raiseUnsupported .read addr s := rfl

/-- Every next state of an operation, named by the operation that made it. -/
theorem exec_next {i : Instr} {s t : State} (h : exec i s = .next t) :
    (∃ page, i = .oamdma page ∧ t =
      { s with
        dma := { s.dma with oamPending := true }
        reads := s.reads + 256
        accesses := s.accesses ++ transferAccesses s.mem s.reads page }) ∨
    (∃ v, i = .padw v ∧ t = { s with pad := padAfterWrite s.pad v }) ∨
    (i = .padr ∧ t =
      { s with pad := padAfterRead s.pad, returned := s.returned ++ [.busData (padReadValue s.pad s.btn)] }) ∨
    (∃ c, i = .addaud c ∧ t = { s with dma := { s.dma with audioCycles := s.dma.audioCycles + c } }) ∨
    (∃ q, i = .drain q ∧ t =
      { s with
        dma := dmaDrained
        returned := s.returned ++ [.stolenCycles (s.dma.audioCycles + oamCharge s.dma.oamPending q)] }) ∨
    (∃ m, i = .setbtn m ∧ t = { s with btn := buttonsOfMask m }) := by
  cases i with
  | oamdma page => rw [exec_oamdma_eq] at h; cases h; exact .inl ⟨page, rfl, rfl⟩
  | padw v => rw [exec_padw_eq] at h; cases h; exact .inr (.inl ⟨v, rfl, rfl⟩)
  | padr => rw [exec_padr_eq] at h; cases h; exact .inr (.inr (.inl ⟨rfl, rfl⟩))
  | addaud c => rw [exec_addaud_eq] at h; cases h; exact .inr (.inr (.inr (.inl ⟨c, rfl, rfl⟩)))
  | drain q => rw [exec_drain_eq] at h; cases h; exact .inr (.inr (.inr (.inr (.inl ⟨q, rfl, rfl⟩))))
  | setbtn m => rw [exec_setbtn_eq] at h; cases h; exact .inr (.inr (.inr (.inr (.inr ⟨m, rfl, rfl⟩))))
  | pad2r => rw [exec_pad2r_eq, raiseUnsupported_eq] at h; cases h
  | buswUnsup addr data => rw [exec_buswUnsup_eq, raiseUnsupported_eq] at h; cases h
  | busrUnsup addr => rw [exec_busrUnsup_eq, raiseUnsupported_eq] at h; cases h

/-- Every fault of an operation. -/
theorem exec_fault {i : Instr} {s : State} {f : Fault} (h : exec i s = .fault f) :
    ∃ info, f = .unsupportedAddress info { s with fault := some (s.fault.getD info) } ∧
      ((i = .pad2r ∧ info = { rw := .read, addr := s.addrs.pad2 }) ∨
       (∃ addr data, i = .buswUnsup addr data ∧ info = { rw := .write, addr := addr }) ∨
       (∃ addr, i = .busrUnsup addr ∧ info = { rw := .read, addr := addr })) := by
  cases i with
  | oamdma page => rw [exec_oamdma_eq] at h; cases h
  | padw v => rw [exec_padw_eq] at h; cases h
  | padr => rw [exec_padr_eq] at h; cases h
  | addaud c => rw [exec_addaud_eq] at h; cases h
  | drain q => rw [exec_drain_eq] at h; cases h
  | setbtn m => rw [exec_setbtn_eq] at h; cases h
  | pad2r => rw [exec_pad2r_eq, raiseUnsupported_eq] at h; cases h; exact ⟨_, rfl, .inl ⟨rfl, rfl⟩⟩
  | buswUnsup addr data =>
    rw [exec_buswUnsup_eq, raiseUnsupported_eq] at h; cases h
    exact ⟨_, rfl, .inr (.inl ⟨addr, data, rfl, rfl⟩)⟩
  | busrUnsup addr =>
    rw [exec_busrUnsup_eq, raiseUnsupported_eq] at h; cases h
    exact ⟨_, rfl, .inr (.inr ⟨addr, rfl, rfl⟩)⟩

/-! Sequences. -/

@[simp] theorem execAll_nil (s : State) : execAll [] s = .next s := rfl

theorem execAll_cons_next {i : Instr} {is : List Instr} {s t : State} (h : exec i s = .next t) :
    execAll (i :: is) s = execAll is t := by
  simp [execAll, h]

/-- A sequence that ends in a next state began with an operation that did. -/
theorem execAll_cons_inv {i : Instr} {is : List Instr} {s u : State} (h : execAll (i :: is) s = .next u) :
    ∃ t, exec i s = .next t ∧ execAll is t = .next u := by
  unfold execAll at h
  cases he : exec i s with
  | next t => exact ⟨t, rfl, by simpa [he] using h⟩
  | fault f => simp [he] at h
  | refused r => simp [he] at h

theorem execAll_append_next {is js : List Instr} {s t : State} (h : execAll is s = .next t) :
    execAll (is ++ js) s = execAll js t := by
  induction is generalizing s with
  | nil => cases h; rfl
  | cons i is ih =>
    obtain ⟨u, hu, ht⟩ := execAll_cons_inv h
    rw [List.cons_append, execAll_cons_next hu, ih ht]

/-- No operation writes the address parameters, the requests still to come, a recorded fault or memory. -/
theorem exec_keeps {i : Instr} {s t : State} (h : exec i s = .next t) :
    t.addrs = s.addrs ∧ t.requests = s.requests ∧ t.fault = s.fault ∧ t.mem = s.mem := by
  rcases exec_next h with ⟨_, _, rfl⟩ | ⟨_, _, rfl⟩ | ⟨_, rfl⟩ | ⟨_, _, rfl⟩ | ⟨_, _, rfl⟩ | ⟨_, _, rfl⟩ <;>
    exact ⟨rfl, rfl, rfl, rfl⟩

/-! The step. -/

/-- One more step of a run, on any machine behind the host's interface. -/
theorem run_succ_of_next {M : Host.Core} (n : Nat) {s t : M.State} (h : M.step s = .next t) :
    M.run (n + 1) s = M.run n t := by
  rw [Host.Core.run, h]

/-- What a step does when an operation has been issued and none has faulted. -/
theorem step_operation {s : State} {q : Request} {rest : List Request} {i : Instr} (hf : s.fault = none)
    (hq : s.requests = q :: rest) (hd : decodeRequest s.addrs q = .ok i) :
    step s = exec i (s.setRequests rest) := by
  simp [step, fetch_of_request hf hq, hd]

/-- Every next state of a step: nothing was issued, or the next request was performed. -/
theorem step_next {s t : State} (h : step s = .next t) :
    s.fault = none ∧ ((s.requests = [] ∧ t = s) ∨
      ∃ q rest i, s.requests = q :: rest ∧ decodeRequest s.addrs q = .ok i ∧ exec i (s.setRequests rest) = .next t) := by
  unfold step at h
  cases hf : s.fault with
  | some f => simp [fetch_of_fault hf] at h
  | none =>
    cases hq : s.requests with
    | nil =>
      rw [fetch_of_idle hf hq] at h
      cases h
      exact ⟨rfl, .inl ⟨rfl, rfl⟩⟩
    | cons q rest =>
      rw [fetch_of_request hf hq] at h
      cases hd : decodeRequest s.addrs q with
      | error r => simp [hd] at h
      | ok i => exact ⟨rfl, .inr ⟨q, rest, i, rfl, hd, by simpa [hd] using h⟩⟩

end Sys2Proof.Machine
end

