-- ==== Sys2Proof/Laws/Memory.lean ====
section
/-! SUPPORT. Main memory as the environment presents it: read after place, the canonical form is kept, and equal contents are
equal data. -/

namespace Sys2Proof.Machine

@[simp] theorem Memory.lookup_nil (a : Nat) : Memory.lookup [] a = none := rfl

theorem Memory.lookup_cons (b : Nat) (v : Byte) (m : Memory) (a : Nat) :
    Memory.lookup ((b, v) :: m) a = if a = b then some v else Memory.lookup m a := rfl

theorem Memory.lookup_place_same (m : Memory) (a : Nat) (v : Byte) :
    Memory.lookup (Memory.place m a v) a = some v := by
  induction m with
  | nil => simp [Memory.place, Memory.lookup]
  | cons c m ih =>
    obtain ⟨b, w⟩ := c
    unfold Memory.place
    split
    · simp [Memory.lookup]
    · split
      · simp [Memory.lookup]
      · rename_i h
        simp [Memory.lookup, h, ih]

theorem Memory.lookup_place_other (m : Memory) {a a' : Nat} (v : Byte) (h : a' ≠ a) :
    Memory.lookup (Memory.place m a v) a' = Memory.lookup m a' := by
  induction m with
  | nil => simp [Memory.place, Memory.lookup, h]
  | cons c m ih =>
    obtain ⟨b, w⟩ := c
    unfold Memory.place
    split
    · simp [Memory.lookup, h]
    · split
      · rename_i hab
        subst hab
        simp [Memory.lookup, h]
      · simp [Memory.lookup, ih]

/-- The addresses a placed byte leaves listed. -/
theorem Memory.mem_place {m : Memory} {a : Nat} {v : Byte} {c : Host.Cell} (h : c ∈ Memory.place m a v) :
    c = (a, v) ∨ c ∈ m := by
  induction m with
  | nil => simpa [Memory.place] using h
  | cons d m ih =>
    obtain ⟨b, w⟩ := d
    unfold Memory.place at h
    split at h
    · simpa using h
    · split at h
      · rcases List.mem_cons.1 h with h | h
        · exact .inl h
        · exact .inr (List.mem_cons_of_mem _ h)
      · rcases List.mem_cons.1 h with h | h
        · exact .inr (h ▸ List.mem_cons_self)
        · exact (ih h).imp_right (List.mem_cons_of_mem _)

/-- Placing a byte inside the address space keeps the canonical form. -/
theorem Memory.place_wf {m : Memory} {a : Nat} (v : Byte) (hm : Memory.wf m) (ha : a < 2 ^ 16) :
    Memory.wf (Memory.place m a v) := by
  refine ⟨?_, fun c hc => ?_⟩
  · have hs := hm.1
    clear hm
    induction m with
    | nil => simp [Memory.place]
    | cons d m ih =>
      obtain ⟨b, w⟩ := d
      obtain ⟨hb, hp⟩ := List.pairwise_cons.1 hs
      unfold Memory.place
      split
      · rename_i hab
        refine List.pairwise_cons.2 ⟨fun c hc => ?_, List.pairwise_cons.2 ⟨hb, hp⟩⟩
        rcases List.mem_cons.1 hc with rfl | hc
        · exact hab
        · exact Nat.lt_trans hab (hb c hc)
      · split
        · rename_i hab
          subst hab
          exact List.pairwise_cons.2 ⟨fun c hc => hb c hc, hp⟩
        · refine List.pairwise_cons.2 ⟨fun c hc => ?_, ih hp⟩
          rcases Memory.mem_place hc with rfl | hc
          · show b < a
            omega
          · exact hb c hc
  · rcases Memory.mem_place hc with rfl | hc
    · exact ha
    · exact hm.2 c hc

/-- An address below every listed one is not listed. -/
theorem Memory.lookup_eq_none {m : Memory} {a : Nat} (h : ∀ c ∈ m, a < c.1) : Memory.lookup m a = none := by
  induction m with
  | nil => rfl
  | cons d m ih =>
    obtain ⟨b, w⟩ := d
    have hb : a ≠ b := Nat.ne_of_lt (h (b, w) List.mem_cons_self)
    simp [Memory.lookup, hb, ih fun c hc => h c (List.mem_cons_of_mem _ hc)]

/-- Two memories in canonical form with the same contents are the same list. -/
theorem Memory.eq_of_lookup_eq {m m' : Memory} (hm : Memory.wf m) (hm' : Memory.wf m')
    (h : ∀ a, Memory.lookup m a = Memory.lookup m' a) : m = m' := by
  induction m generalizing m' with
  | nil =>
    cases m' with
    | nil => rfl
    | cons d m' => simpa [Memory.lookup] using h d.1
  | cons c m ih =>
    cases m' with
    | nil => simpa [Memory.lookup] using h c.1
    | cons d m' =>
      obtain ⟨b, v⟩ := c
      obtain ⟨b', v'⟩ := d
      obtain ⟨hb, hp⟩ := List.pairwise_cons.1 hm.1
      obtain ⟨hb', hp'⟩ := List.pairwise_cons.1 hm'.1
      have head : b = b' := by
        rcases Nat.lt_trichotomy b b' with hlt | heq | hlt
        · have := h b
          rw [Memory.lookup_eq_none (m := (b', v') :: m')] at this
          · simp [Memory.lookup] at this
          · intro e he
            rcases List.mem_cons.1 he with rfl | he
            · exact hlt
            · exact Nat.lt_trans hlt (hb' e he)
        · exact heq
        · have := h b'
          rw [Memory.lookup_eq_none (m := (b, v) :: m)] at this
          · simp [Memory.lookup] at this
          · intro e he
            rcases List.mem_cons.1 he with rfl | he
            · exact hlt
            · exact Nat.lt_trans hlt (hb e he)
      subst head
      have hv : v = v' := by simpa [Memory.lookup] using h b
      subst hv
      have tail : m = m' := by
        refine ih ⟨hp, fun e he => hm.2 e (List.mem_cons_of_mem _ he)⟩
          ⟨hp', fun e he => hm'.2 e (List.mem_cons_of_mem _ he)⟩ fun a => ?_
        by_cases hab : a = b
        · subst hab
          rw [Memory.lookup_eq_none hb, Memory.lookup_eq_none hb']
        · simpa [Memory.lookup, hab] using h a
      rw [tail]

/-- Nothing is listed at reset, which is canonical. -/
theorem reset_mem_wf : Memory.wf State.reset.mem := by
  simp [State.reset, Memory.wf]

end Sys2Proof.Machine
end

