-- ==== Sys2Proof/Laws/PerInstr.lean ====
section
/-! SUPPORT. Statements made of every operation, one lemma per constructor (LAWS.json). -/

namespace Sys2Proof.Laws.SelectRoundTrip

/-- The operation selected for the record of a well-formed operation is that operation, with every operand
(30_encoding.md R55). -/
def Statement (i : Instr) : Prop :=
  ∀ p : AddrMap, p.Distinct → i.wf p = true → select p (i.toRecord p) = i

theorem oamdma (page : Byte) : Statement (.oamdma page) := fun p _ _ => by
  simp [Instr.toRecord, select, selectWrite]

theorem padw (v : Byte) : Statement (.padw v) := fun p hp _ => by
  simp [Instr.toRecord, select, selectWrite, hp.1.symm]

theorem buswUnsup (addr : Addr) (data : Byte) : Statement (.buswUnsup addr data) := fun p _ hw => by
  simp only [Instr.wf, Bool.and_eq_true, bne_iff_ne] at hw
  simp [Instr.toRecord, select, selectWrite, hw.1, hw.2]

theorem padr : Statement .padr := fun p _ _ => by
  simp [Instr.toRecord, select, selectRead]

theorem pad2r : Statement .pad2r := fun p hp _ => by
  simp [Instr.toRecord, select, selectRead, hp.2.2.symm]

theorem busrUnsup (addr : Addr) : Statement (.busrUnsup addr) := fun p _ hw => by
  simp only [Instr.wf, Bool.and_eq_true, bne_iff_ne] at hw
  simp [Instr.toRecord, select, selectRead, hw.1, hw.2]

theorem addaud (cycles : Nat) : Statement (.addaud cycles) := fun _ _ _ => rfl

theorem drain (parity : Nat) : Statement (.drain parity) := fun _ _ _ => rfl

theorem setbtn (mask : Byte) : Statement (.setbtn mask) := fun _ _ _ => rfl

end Sys2Proof.Laws.SelectRoundTrip
end

