-- ==== Sys2Proof/Tests/Slice0.lean ====
section
/-! SUPPORT. The model's own tests: ill-formed terms are refused, words written out from the spec's encodings decode, single
steps give the values of 95_test_vectors.md, and every obligation's hypotheses are met by concrete states and operands. -/

namespace Sys2Proof.Tests

open Sys2Proof.Machine Sys2Proof.Statements

/-! ## Helpers -/

/-- The state after reset with no button pressed: a state Lean can write out whole (the buttons at reset are free). -/
def base : State := { State.reset with btn := buttonsOfMask 0x00 }

/-- `base` with a Controller Device. -/
def padState (ctrl : Byte) (mode : PadMode) (cursor : Nat) (mask : Byte) : State :=
  { base with pad := { ctrl := ctrl, mode := mode, cursor := cursor }, btn := buttonsOfMask mask }

/-- `base` with a DMA Engine. -/
def dmaState (audio : Nat) (pending : Bool) : State := { base with dma := { audioCycles := audio, oamPending := pending } }

/-- `M[0x0200 + k] = 0xFF - k` (95_test_vectors.md Part 2). -/
def pageTwo : Memory := (List.range 256).map fun k => (0x0200 + k, BitVec.ofNat 8 (0xFF - k))

/-- The next state, where the outcome is one. -/
def nextOf : Host.Outcome State Fault Refusal → Option State
  | .next t => some t
  | .fault _ => none
  | .refused _ => none

/-- What a fault reports and leaves, where the outcome is one. -/
def faultOf : Host.Outcome State Fault Refusal → Option (BusAccess × State)
  | .next _ => none
  | .fault (.unsupportedAddress info left) => some (info, left)
  | .refused _ => none

/-- The address of a MemRead. -/
def readAddr : Access → Option Addr
  | .memRead addr _ => some addr
  | .oamPush _ _ => none

theorem base_inv : base.Inv := ⟨⟨by decide, by decide, by decide⟩, by decide, by decide⟩

/-! ## WellFormed: each check refuses an ill-formed term -/

theorem test_wf_refuses_claimed_writes :
    (Instr.buswUnsup 0x4014 0x00).wf AddrMap.usual = false ∧ (Instr.buswUnsup 0x4016 0x00).wf AddrMap.usual = false := by
  decide

theorem test_wf_refuses_named_reads :
    (Instr.busrUnsup 0x4016).wf AddrMap.usual = false ∧ (Instr.busrUnsup 0x4017).wf AddrMap.usual = false := by decide

theorem test_wf_takes_unclaimed :
    (Instr.buswUnsup 0x4017 0x00).wf AddrMap.usual = true ∧ (Instr.busrUnsup 0x4014).wf AddrMap.usual = true := by decide

/-- 30_encoding.md R48: "only below 2^28". -/
theorem test_packable_bounds :
    (Instr.addaud (2 ^ 28)).packable = false ∧ (Instr.drain (2 ^ 28)).packable = false ∧
    (Instr.addaud (2 ^ 28 - 1)).packable = true ∧ (Instr.drain (2 ^ 28 - 1)).packable = true ∧
    (Record.aa (2 ^ 28)).packable = false ∧ (Record.dr (2 ^ 28)).packable = false := by decide

/-- 00_scope.md R9: the addresses must be pairwise distinct. -/
theorem test_distinct_refuses :
    ¬ AddrMap.Distinct { oamdma := 1, pad1 := 1, pad2 := 2 } ∧ ¬ AddrMap.Distinct { oamdma := 1, pad1 := 2, pad2 := 1 } ∧
    ¬ AddrMap.Distinct { oamdma := 1, pad1 := 2, pad2 := 2 } := by decide

/-- Memory's canonical form: not sorted, repeated, outside the space. -/
theorem test_memory_wf_refuses :
    ¬ Memory.wf [(2, 0x00), (1, 0x00)] ∧ ¬ Memory.wf [(1, 0x00), (1, 0x00)] ∧ ¬ Memory.wf [(0x10000, 0x00)] := by decide

/-! ## Decoding: words written out field by field from 30_encoding.md R48 and R55, at the default addresses -/

/-- op 0001, zero 0000, addr 0x4014, page 0x02 (V26a). -/
theorem test_decode_oamdma : decode AddrMap.usual 0b0001_0000_0100000000010100_00000010#32 = .ok (.oamdma 0x02) := by decide

/-- op 0001, zero 0000, addr 0x4016, v 0x01 (V26b). -/
theorem test_decode_padw : decode AddrMap.usual 0b0001_0000_0100000000010110_00000001#32 = .ok (.padw 0x01) := by decide

/-- op 0001, zero 0000, addr 0x4015, data 0x00 (V26h); addr 0x4017, data 0xA5. -/
theorem test_decode_buswUnsup :
    decode AddrMap.usual 0b0001_0000_0100000000010101_00000000#32 = .ok (.buswUnsup 0x4015 0x00) ∧
    decode AddrMap.usual 0b0001_0000_0100000000010111_10100101#32 = .ok (.buswUnsup 0x4017 0xA5) := by decide

/-- op 0010, zero 0000, addr 0x4016, zero (V26c). -/
theorem test_decode_padr : decode AddrMap.usual 0b0010_0000_0100000000010110_00000000#32 = .ok .padr := by decide

/-- op 0010, zero 0000, addr 0x4017, zero (V26d). -/
theorem test_decode_pad2r : decode AddrMap.usual 0b0010_0000_0100000000010111_00000000#32 = .ok .pad2r := by decide

/-- op 0010, zero 0000, addr 0x4014, zero (V26i); addr 0xFFFF. -/
theorem test_decode_busrUnsup :
    decode AddrMap.usual 0b0010_0000_0100000000010100_00000000#32 = .ok (.busrUnsup 0x4014) ∧
    decode AddrMap.usual 0b0010_0000_1111111111111111_00000000#32 = .ok (.busrUnsup 0xFFFF) := by decide

/-- op 0011, cycles 4 (V26e); all 28 bits set. -/
theorem test_decode_addaud :
    decode AddrMap.usual 0b0011_0000000000000000000000000100#32 = .ok (.addaud 4) ∧
    decode AddrMap.usual 0b0011_1111111111111111111111111111#32 = .ok (.addaud 268435455) := by decide

/-- op 0100, parity 1 (V26f); bit 27 alone. -/
theorem test_decode_drain :
    decode AddrMap.usual 0b0100_0000000000000000000000000001#32 = .ok (.drain 1) ∧
    decode AddrMap.usual 0b0100_1000000000000000000000000000#32 = .ok (.drain 134217728) := by decide

/-- op 0101, zero 20 bits, mask 0x89 (V26g). -/
theorem test_decode_setbtn : decode AddrMap.usual 0b0101_00000000000000000000_10001001#32 = .ok (.setbtn 0x89) := by decide

/-- Other addresses, other decoding: the word of PADR at the defaults is a write's neighbour elsewhere (00_scope.md R9). -/
theorem test_decode_follows_addresses :
    decode { oamdma := 0x0001, pad1 := 0x0002, pad2 := 0x0003 } 0x20401600 = .ok (.busrUnsup 0x4016) ∧
    decode { oamdma := 0x0001, pad1 := 0x0002, pad2 := 0x0003 } 0x20000200 = .ok .padr := by decide

/-- V26j to V26m. -/
theorem test_decode_refuses :
    decode AddrMap.usual 0x00000000 = .error (.unassignedOp 0x0) ∧
    decode AddrMap.usual 0x60000000 = .error (.unassignedOp 0x6) ∧
    decode AddrMap.usual 0xF0000000 = .error (.unassignedOp 0xF) ∧
    decode AddrMap.usual 0x20401601 = .error .busReadZeroField ∧
    decode AddrMap.usual 0x11401600 = .error .busWriteZeroField ∧
    decode AddrMap.usual 0x50000100 = .error .buttonZeroField := by decide

/-- The `match` and `mask` columns of opcode_table.json. -/
theorem test_opcode_table_is_the_printed_one :
    (opcodeTable AddrMap.usual).map (fun r => (r.mnemonic, r.pattern, r.mask)) =
      [ ("OAMDMA", 0x10401400, 0xFFFFFF00), ("PADW", 0x10401600, 0xFFFFFF00), ("BUSW.UNSUP", 0x10000000, 0xFF000000),
        ("PADR", 0x20401600, 0xFFFFFFFF), ("PAD2R", 0x20401700, 0xFFFFFFFF), ("BUSR.UNSUP", 0x20000000, 0xFF0000FF),
        ("ADDAUD", 0x30000000, 0xF0000000), ("DRAIN", 0x40000000, 0xF0000000), ("SETBTN", 0x50000000, 0xFFFFFF00) ] := by
  decide

/-- The nine `match` words through the host's entry. -/
theorem test_decodeTableWord :
    decodeTableWord 32 0x10401400 = some (.oamdma 0x00) ∧ decodeTableWord 32 0x10401600 = some (.padw 0x00) ∧
    decodeTableWord 32 0x10000000 = some (.buswUnsup 0x0000 0x00) ∧ decodeTableWord 32 0x20401600 = some .padr ∧
    decodeTableWord 32 0x20401700 = some .pad2r ∧ decodeTableWord 32 0x20000000 = some (.busrUnsup 0x0000) ∧
    decodeTableWord 32 0x30000000 = some (.addaud 0) ∧ decodeTableWord 32 0x40000000 = some (.drain 0) ∧
    decodeTableWord 32 0x50000000 = some (.setbtn 0x00) ∧ decodeTableWord 32 0x60000000 = none := by decide

/-- A word presented to the reset state is the very next operation, and nothing else changes. -/
theorem test_withFetchWord_runs_first :
    step (State.reset.withFetchWord 32 0x30000004) = exec (.addaud 4) State.reset ∧
    step (State.reset.withFetchWord 32 0x20401700) = exec .pad2r State.reset ∧
    step (State.reset.withFetchWord 32 0x10401402) = exec (.oamdma 0x02) State.reset :=
  ⟨rfl, rfl, step_operation (q := .packed (tableWord 32 0x10401402)) (rest := []) rfl rfl rfl⟩

/-! ## One step of each operation -/

/-- V2: the trace is FF FE ... 01 00. -/
theorem test_oamdma_trace :
    (nextOf (exec (.oamdma 0x02) { base with mem := pageTwo })).map (fun t => sinkTrace t.accesses) =
      some ((List.range 256).map fun k => BitVec.ofNat 8 (0xFF - k)) := by
  rw [exec_oamdma_eq]
  simp only [nextOf, Option.map_some, Option.some.injEq]
  decide +kernel

/-- V8a: page 0xFF, from 0xFF00 to 0xFFFF, no wrap; the pending flag set. -/
theorem test_oamdma_last_page :
    (nextOf (exec (.oamdma 0xFF) base)).map (fun t =>
      ((t.accesses[0]?).bind readAddr, (t.accesses[510]?).bind readAddr, t.accesses.length, t.dma.oamPending)) =
      some (some 0xFF00, some 0xFFFF, 512, true) := by
  rw [exec_oamdma_eq]
  simp only [nextOf, Option.map_some, Option.some.injEq]
  decide +kernel

/-- V19a: the first PADW #$00 after reset is a falling edge. -/
theorem test_padw_falling :
    (nextOf (exec (.padw 0x00) base)).map State.pad = some { ctrl := 0x00, mode := .latching, cursor := 0 } := by decide

/-- V15: writing 1 again is no edge, the cursor stays. -/
theorem test_padw_no_edge :
    (nextOf (exec (.padw 0x01) (padState 0x01 .shifting 3 0x08))).map State.pad =
      some { ctrl := 0x01, mode := .shifting, cursor := 3 } := by decide

/-- V11: the eighth read returns Right and leaves cursor 8. -/
theorem test_padr_eighth :
    (nextOf (exec .padr (padState 0x01 .shifting 7 0x89))).map (fun t => (t.returned, t.pad.cursor)) =
      some ([.busData 0x01], 8) := by decide

/-- V18: exhausted, no button pressed: 01; the cursor stays 8. -/
theorem test_padr_exhausted :
    (nextOf (exec .padr (padState 0x01 .shifting 8 0x00))).map (fun t => (t.returned, t.pad.cursor)) =
      some ([.busData 0x01], 8) := by decide

/-- The example of 40_dma_engine.md R62: 3 and then ADDAUD 4 is 7. -/
theorem test_addaud :
    (nextOf (exec (.addaud 4) (dmaState 3 true))).map State.dma = some { audioCycles := 7, oamPending := true } := by decide

/-- The example of 40_dma_engine.md R63: 4 + 513 + 1. -/
theorem test_drain_pending :
    (nextOf (exec (.drain 1) (dmaState 4 true))).map (fun t => (t.returned, t.dma)) =
      some ([.stolenCycles 518], { audioCycles := 0, oamPending := false }) := by decide

/-- V9: the second drain returns 2, its parity ignored. -/
theorem test_drain_audio_only :
    (nextOf (exec (.drain 1) (dmaState 2 false))).map (fun t => (t.returned, t.dma)) =
      some ([.stolenCycles 2], { audioCycles := 0, oamPending := false }) := by decide

/-- V26g: mask 0x89 is A, Start and Right. -/
theorem test_setbtn :
    (nextOf (exec (.setbtn 0x89) base)).map State.btn =
      some { a := true, b := false, select := false, start := true, up := false, down := false, left := false,
             right := true } := by decide

/-- V25: PAD2R leaves the cursor and the accumulator, and records (read, 0x4017). -/
theorem test_pad2r :
    faultOf (exec .pad2r { padState 0x01 .shifting 2 0x00 with dma := { audioCycles := 3, oamPending := false } }) =
      some ({ rw := .read, addr := 0x4017 },
        { padState 0x01 .shifting 2 0x00 with
          dma := { audioCycles := 3, oamPending := false }, fault := some { rw := .read, addr := 0x4017 } }) := by decide

/-- V22. -/
theorem test_buswUnsup :
    faultOf (exec (.buswUnsup 0x4017 0x01) base) =
      some ({ rw := .write, addr := 0x4017 }, { base with fault := some { rw := .write, addr := 0x4017 } }) := by decide

/-- V23: no transfer. -/
theorem test_busrUnsup :
    faultOf (exec (.busrUnsup 0x4014) base) =
      some ({ rw := .read, addr := 0x4014 }, { base with fault := some { rw := .read, addr := 0x4014 } }) := by decide

/-! ## Witnesses: states and operands that meet the hypotheses of each obligation that has any, clause by clause -/

theorem witness_EveryStepKeepsInvariant :
    (∃ s t, State.Inv s ∧ s.requests ≠ [] ∧ step s = .next t) ∧
    (∃ s info left, State.Inv s ∧ step s = .fault (.unsupportedAddress info left)) :=
  ⟨⟨{ base with requests := [.record (.bw 0x4016 0x00)] }, _, ⟨base_inv.pad, base_inv.mem, base_inv.addrs⟩, by simp, rfl⟩,
   ⟨{ base with requests := [.record (.br 0x4017)] }, _, _, ⟨base_inv.pad, base_inv.mem, base_inv.addrs⟩, rfl⟩⟩

/-- Every operation, the counts at their greatest. -/
theorem witness_DecodeOfEncodeIsTheOperation :
    AddrMap.usual.Distinct ∧
    ∀ i ∈ [Instr.oamdma 0xFF, .padw 0xFF, .buswUnsup 0x4017 0xFF, .padr, .pad2r, .busrUnsup 0x4014, .addaud (2 ^ 28 - 1),
        .drain (2 ^ 28 - 1), .setbtn 0xFF],
      i.wf AddrMap.usual = true ∧ i.packable = true := by decide

theorem witness_EncodeOfDecodeIsTheWord :
    decode AddrMap.usual 0x3FFFFFFF = .ok (.addaud (2 ^ 28 - 1)) ∧ decode AddrMap.usual 0x10FFFFFF = .ok (.buswUnsup 0xFFFF 0xFF) ∧
    decode AddrMap.usual 0x10401402 = .ok (.oamdma 0x02) := by decide

theorem witness_DecodeAgreesWithOpcodeTable :
    decode AddrMap.usual 0x104016FF = .ok (.padw 0xFF) ∧ decode AddrMap.usual 0x500001FF = .error .buttonZeroField := by decide

/-- A word of each refused kind, at the edges of the ranges, and a word next to each that is none. -/
theorem witness_MalformedWordsAreRefused :
    ([0x00000000, 0x0FFFFFFF, 0x60000000, 0xFFFFFFFF, 0x11000000, 0x1F000000, 0x21000000, 0x20000001, 0x200000FF, 0x50000100,
        0x5FFFFFFF].map fun w => (unpack w).isOk) = List.replicate 11 false ∧
    ([0x10000000, 0x10FFFFFF, 0x20000000, 0x20FFFF00, 0x3FFFFFFF, 0x4FFFFFFF, 0x500000FF].map fun w => (unpack w).isOk) =
      List.replicate 7 true := by decide

theorem witness_StepPerformsTheNextRequest :
    (∃ s : State, s.fault = none ∧ s.requests = [.record (.aa (2 ^ 28))]) ∧
    (∃ s : State, s.fault = none ∧ s.requests = [.packed 0x20401600] ∧ decode s.addrs 0x20401600 = .ok .padr) :=
  ⟨⟨{ base with requests := [.record (.aa (2 ^ 28))] }, rfl, rfl⟩, ⟨{ base with requests := [.packed 0x20401600] }, rfl, rfl, rfl⟩⟩

theorem witness_StepRefusesOrIdles :
    (∃ (s : State) (f : BusAccess), s.fault = some f ∧ s.requests ≠ []) ∧
    (∃ s : State, s.fault = none ∧ s.requests = []) ∧
    (∃ s : State, s.fault = none ∧ s.requests = [.packed 0x50000100] ∧
      decode s.addrs 0x50000100 = .error .buttonZeroField) :=
  ⟨⟨{ base with fault := some { rw := .read, addr := 0 }, requests := [.record (.dr 0)] }, _, rfl, by simp⟩,
   ⟨base, rfl, rfl⟩, ⟨{ base with requests := [.packed 0x50000100] }, rfl, rfl, rfl⟩⟩

/-- An address of each branch; 0x4013, 0x4015 and 0x4017 are next to the claimed ones. -/
theorem witness_BusWriteIsDispatchedByAddress :
    base.fault = none ∧ 0x4014 = base.addrs.oamdma ∧ 0x4016 ≠ base.addrs.oamdma ∧ 0x4016 = base.addrs.pad1 ∧
    ([0x0000, 0x4013, 0x4015, 0x4017, 0xFFFF].map fun addr => decide (addr ≠ base.addrs.oamdma ∧ addr ≠ base.addrs.pad1)) =
      List.replicate 5 true ∧
    ∀ addr, { base with requests := [.record (.bw addr 0xFF)] }.requests = Request.record (.bw addr 0xFF) :: [] :=
  ⟨rfl, by decide, by decide, by decide, by decide, fun _ => rfl⟩

theorem witness_BusReadIsDispatchedByAddress :
    base.fault = none ∧ 0x4016 = base.addrs.pad1 ∧
    ([0x0000, 0x4014, 0x4015, 0x4017, 0xFFFF].map fun addr => decide (addr ≠ base.addrs.pad1)) = List.replicate 5 true ∧
    ∀ addr, { base with requests := [.record (.br addr)] }.requests = Request.record (.br addr) :: [] :=
  ⟨rfl, by decide, by decide, fun _ => rfl⟩

/-- The last byte of the last page. -/
theorem witness_OamdmaCopiesThePageInOrder :
    255 < 256 ∧ (BitVec.ofNat 16 ((0xFF#8).toNat * 256 + 255)).toNat = 0xFFFF := by decide

theorem pageTwo_wf : Memory.wf pageTwo := by
  constructor
  · simp only [pageTwo, List.pairwise_map, Nat.add_lt_add_iff_left]
    exact List.pairwise_lt_range
  · simp only [pageTwo, List.mem_map, List.mem_range, forall_exists_index, and_imp]
    rintro c k hk rfl
    simp only
    omega

theorem pageTwo_lookup {k : Nat} (hk : k < 256) : Memory.lookup pageTwo (0x0200 + k) = some (BitVec.ofNat 8 (0xFF - k)) := by
  have key : ∀ l : List Nat, k ∈ l →
      Memory.lookup (l.map fun j => (0x0200 + j, BitVec.ofNat 8 (0xFF - j))) (0x0200 + k) = some (BitVec.ofNat 8 (0xFF - k)) := by
    intro l h
    induction l with
    | nil => simp at h
    | cons b l ih =>
      rw [List.map_cons, Memory.lookup_cons]
      split
      · rw [show k = b by omega]
      · exact ih ((List.mem_cons.mp h).resolve_left (by omega))
  exact key _ (List.mem_range.mpr hk)

/-- A memory that lists a whole page, in canonical form. -/
theorem witness_TransferDeliversThePlacedPage :
    Memory.wf pageTwo ∧
    ∀ k, k < 256 → Memory.lookup { base with mem := pageTwo }.mem ((0x02#8).toNat * 256 + k) = some (BitVec.ofNat 8 (0xFF - k)) :=
  ⟨pageTwo_wf, fun _ hk => pageTwo_lookup hk⟩

/-- The greatest count a packed word carries, for ADDAUD and DRAIN. -/
theorem witness_AddaudAddsExactly_DrainReturnsTheSum : 2 ^ 28 - 1 < 2 ^ 28 := by decide

theorem witness_DmaOperationsFrame :
    (∃ t, IsDmaOp (.oamdma 0x02) ∧ exec (.oamdma 0x02) { base with mem := pageTwo } = .next t ∧
      Memory.lookup pageTwo (0x02FF#16).toNat = some 0x00) ∧
    (∃ t, IsDmaOp (.addaud 0) ∧ exec (.addaud 0) base = .next t ∧ ∀ page, Instr.addaud 0 ≠ .oamdma page) ∧
    (∃ t, IsDmaOp (.drain 0) ∧ exec (.drain 0) base = .next t ∧ ∀ page, Instr.drain 0 ≠ .oamdma page) :=
  ⟨⟨_, .inl ⟨_, rfl⟩, rfl, pageTwo_lookup (k := 255) (by decide)⟩, ⟨_, .inr (.inl ⟨_, rfl⟩), rfl, by simp⟩, ⟨_, .inr (.inr ⟨_, rfl⟩), rfl, by simp⟩⟩

theorem witness_OnlyOamdmaAccessesMemory :
    (∃ t, exec (.oamdma 0xFF) base = .next t) ∧
    (∃ t, exec (.setbtn 0xFF) base = .next t ∧ ∀ page, Instr.setbtn 0xFF ≠ .oamdma page) ∧
    (∃ info left, exec .pad2r base = .fault (.unsupportedAddress info left)) :=
  ⟨⟨_, rfl⟩, ⟨_, rfl, by simp⟩, ⟨_, _, rfl⟩⟩

theorem witness_DrainReportsAllSinceTheLastDrain :
    ∃ t, (∀ i ∈ [Instr.oamdma 0x02, .addaud 4, .oamdma 0x03, .padr], ∀ q, i ≠ .drain q) ∧
      execAll [.oamdma 0x02, .addaud 4, .oamdma 0x03, .padr] base = .next t := by
  simp [execAll, exec_oamdma_eq, exec_addaud_eq, exec_padr_eq]

theorem witness_EveryTriggerCopiesInFull :
    ∃ t, execAll [.oamdma 0x02, .drain 0, .oamdma 0xFF] base = .next t := by
  simp [execAll, exec_oamdma_eq, exec_drain_eq]

/-- A falling edge, a rising edge (in a state with the invariant) and two writes without an edge. -/
theorem witness_PadwActsOnEdgesOfBitZero :
    base.addrs.oamdma ≠ base.addrs.pad1 ∧
    ((padState 0x01 .shifting 8 0x00).pad.ctrl.getLsbD 0 = true ∧ (0xFE#8).getLsbD 0 = false) ∧
    ((padState 0xFE .latching 0 0x00).pad.ctrl.getLsbD 0 = false ∧ (0x01#8).getLsbD 0 = true ∧
      PadInv (padState 0xFE .latching 0 0x00).pad) ∧
    (padState 0x01 .shifting 3 0x00).pad.ctrl.getLsbD 0 = (0xFF#8).getLsbD 0 ∧
    (padState 0x00 .latching 0 0x00).pad.ctrl.getLsbD 0 = (0x02#8).getLsbD 0 :=
  ⟨by decide, by decide, ⟨by decide, by decide, ⟨by decide, by decide, by decide⟩⟩, by decide, by decide⟩

/-- Latching; shifting at cursors 0, 7 and 8. -/
theorem witness_PadrReturnsTheNextButton :
    (padState 0x00 .latching 0 0x01).pad.mode = .latching ∧
    ((padState 0x01 .shifting 0 0x01).pad.mode = .shifting ∧
      (readOrder (padState 0x01 .shifting 0 0x01).btn)[(padState 0x01 .shifting 0 0x01).pad.cursor]? = some true) ∧
    ((padState 0x01 .shifting 7 0x80).pad.mode = .shifting ∧
      (readOrder (padState 0x01 .shifting 7 0x80).btn)[(padState 0x01 .shifting 7 0x80).pad.cursor]? = some true) ∧
    ((padState 0x01 .shifting 8 0x00).pad.mode = .shifting ∧ 8 ≤ (padState 0x01 .shifting 8 0x00).pad.cursor) := by decide

/-- The first button and the last, and a state before the first read. -/
theorem witness_ButtonsAreReadInTheFixedOrder :
    (readOrder (padState 0x01 .shifting 0 0x01).btn)[(padState 0x01 .shifting 0 0x01).pad.cursor]? = some true ∧
    (readOrder (padState 0x01 .shifting 7 0x7F).btn)[(padState 0x01 .shifting 7 0x7F).pad.cursor]? = some false ∧
    base.pad.mode = .shifting ∧ base.pad.cursor = 0 := by decide

theorem witness_PadOperationsFrame :
    (∃ t, IsPadOp (.padw 0x00) ∧ exec (.padw 0x00) base = .next t ∧ (∀ m, Instr.padw 0x00 ≠ .setbtn m) ∧ Instr.padw 0x00 ≠ .padr) ∧
    (∃ t, IsPadOp .padr ∧ exec .padr base = .next t ∧ ∀ v, Instr.padr ≠ .padw v) ∧
    (∃ t, IsPadOp (.setbtn 0xFF) ∧ exec (.setbtn 0xFF) base = .next t ∧ Instr.setbtn 0xFF ≠ .padr) :=
  ⟨⟨_, .inl ⟨_, rfl⟩, rfl, by simp, by simp⟩, ⟨_, .inr (.inl rfl), rfl, by simp⟩, ⟨_, .inr (.inr ⟨_, rfl⟩), rfl, by simp⟩⟩

/-- The three kinds of row of the table, each in a state with the invariant: cursor 0, 8, and latching. -/
theorem witness_ControllerFollowsTheTransitionTable :
    (PadInv (padState 0x01 .shifting 0 0x00).pad ∧ padView (padState 0x01 .shifting 0 0x00).pad = (.shifting, true, 0) ∧
      (readOrder (padState 0x01 .shifting 0 0x00).btn)[0]? = some false) ∧
    (PadInv (padState 0x07 .shifting 8 0x00).pad ∧ padView (padState 0x07 .shifting 8 0x00).pad = (.shifting, true, 8)) ∧
    (PadInv (padState 0xFE .latching 0 0x00).pad ∧ padView (padState 0xFE .latching 0 0x00).pad = (.latching, false, 0)) ∧
    ((0x01#8).getLsbD 0 = true ∧ (0x00#8).getLsbD 0 = false) ∧
    (IsDmaOp (.drain 0) ∧ ∃ t, exec (.drain 0) base = .next t) ∧
    IsFaultOp .pad2r :=
  ⟨⟨⟨by decide, by decide, by decide⟩, by decide, by decide⟩, ⟨⟨by decide, by decide, by decide⟩, by decide⟩,
   ⟨⟨by decide, by decide, by decide⟩, by decide⟩, by decide, ⟨.inr (.inr ⟨_, rfl⟩), _, rfl⟩, .inl rfl⟩

theorem witness_ModeFollowsTheLastWrittenBit :
    ∃ t, PadInv (padState 0x06 .latching 0 0x00).pad ∧ exec (.padw 0x01) (padState 0x06 .latching 0 0x00) = .next t ∧
      (padState 0x06 .latching 0 0x00).pad.ctrl.getLsbD 0 = false ∧ (0x01#8).getLsbD 0 = true :=
  ⟨_, ⟨by decide, by decide, by decide⟩, rfl, by decide, by decide⟩

theorem witness_RearmAndLatchWorkFromAnyState :
    (0xFF#8).getLsbD 0 = true ∧ (0xFE#8).getLsbD 0 = false ∧ (0x01#8).getLsbD 0 = true ∧ base.addrs.Distinct := by decide

/-- Eight reads from cursor 0; the sum reaches its bound. -/
theorem witness_ShiftingReadsSampleLive :
    base.pad.mode = .shifting ∧ base.pad.cursor + (List.replicate 8 (0x55 : Byte)).length ≤ 8 := by decide

theorem witness_LatchingReadsTrackButtonA : (padState 0x00 .latching 0 0x00).pad.mode = .latching := by decide

theorem witness_ExhaustedReadsReturnOne :
    ∃ t, (padState 0x01 .shifting 8 0x00).pad.mode = .shifting ∧ (padState 0x01 .shifting 8 0x00).pad.cursor = 8 ∧
      (∀ i ∈ [Instr.padr, .setbtn 0x00, .addaud 3, .drain 1, .padr], ∀ v, i ≠ .padw v) ∧
      execAll [.padr, .setbtn 0x00, .addaud 3, .drain 1, .padr] (padState 0x01 .shifting 8 0x00) = .next t :=
  ⟨_, rfl, rfl, by simp, rfl⟩

/-- Both cases happen, with a cursor beyond 8. -/
theorem witness_SaturationIsUnobservable :
    (∃ v, execAllUnbounded [.padr, .padr] (padState 0x01 .shifting 8 0x00) = .next v ∧ v.pad.cursor = 10) ∧
    (∃ info left, execAllUnbounded [.padr, .pad2r] (padState 0x01 .shifting 8 0x00) = .fault (.unsupportedAddress info left)) :=
  ⟨⟨_, rfl, rfl⟩, ⟨_, _, rfl⟩⟩

/-- Two runs that differ in the bits erased; one pair completes, one faults. -/
theorem witness_ControlBitsSevenToOneAreUnobservable :
    padState 0x01 .shifting 0 0x00 ≠ padState 0xFF .shifting 0 0x00 ∧
    eraseState (padState 0x01 .shifting 0 0x00) = eraseState (padState 0xFF .shifting 0 0x00) ∧
    [Instr.padw 0x06, .padr].map eraseInstr = [Instr.padw 0x00, .padr].map eraseInstr ∧
    [Instr.padw 0x07, .pad2r].map eraseInstr = [Instr.padw 0x01, .pad2r].map eraseInstr := by decide

theorem witness_PadTwoReadAlwaysFaults :
    base.fault = none ∧
    { base with fault := some { rw := .write, addr := 0 } }.fault = some (⟨.write, 0⟩ : BusAccess) := by decide

theorem witness_UnclaimedWriteAlwaysFaults :
    ([0x0000, 0x4013, 0x4015, 0x4017, 0xFFFF].map fun addr => decide (addr ≠ base.addrs.oamdma ∧ addr ≠ base.addrs.pad1)) =
      List.replicate 5 true ∧
    base.addrs.Distinct ∧ base.fault = none := by decide

theorem witness_UnclaimedReadAlwaysFaults :
    ([0x0000, 0x4014, 0x4015, 0x4018, 0xFFFF].map fun addr => decide (addr ≠ base.addrs.pad1 ∧ addr ≠ base.addrs.pad2)) =
      List.replicate 5 true ∧
    base.addrs.Distinct ∧ base.fault = none := by decide

theorem witness_ExactlyThreeOperationsFault :
    IsFaultOp .pad2r ∧ IsFaultOp (.buswUnsup 0xFFFF 0xFF) ∧ IsFaultOp (.busrUnsup 0x0000) ∧ ¬ IsFaultOp .padr :=
  ⟨.inl rfl, .inr (.inl ⟨_, _, rfl⟩), .inr (.inr ⟨_, rfl⟩), by simp [IsFaultOp]⟩

theorem witness_FaultIsPreciseAndSticky :
    (∃ info left, exec .pad2r base = .fault (.unsupportedAddress info left)) ∧ (∃ t, exec .padr base = .next t) :=
  ⟨⟨_, _, rfl⟩, ⟨_, rfl⟩⟩

theorem witness_ExactlyThreeBusAccessesAreAccepted :
    (∀ addr data, Record.dr 0 ≠ .bw addr data) ∧ (∀ addr, Record.dr 0 ≠ .br addr) := by simp

/-- A safe state with an operation of each claimed kind issued, as records and as words. -/
theorem witness_ClaimedRequestsNeverFault :
    ∃ s : State, s.Safe ∧ s.requests.length = 5 :=
  ⟨{ base with requests := [.record (.bw 0x4014 0x02), .packed 0x10401601, .packed 0x20401600, .record (.aa 4), .packed 0x40000001] },
   ⟨rfl, by decide⟩, rfl⟩

theorem witness_ComponentsAreIndependent :
    IsDmaOp (.oamdma 0xFF) ∧ IsDmaOp (.addaud 1) ∧ IsDmaOp (.drain 1) ∧ IsPadOp (.padw 0x00) ∧ IsPadOp .padr ∧
    IsPadOp (.setbtn 0x00) :=
  ⟨.inl ⟨_, rfl⟩, .inr (.inl ⟨_, rfl⟩), .inr (.inr ⟨_, rfl⟩), .inl ⟨_, rfl⟩, .inr (.inl rfl), .inr (.inr ⟨_, rfl⟩)⟩

theorem witness_DmaAndPressPseudoOperations : base.addrs.Distinct := by decide

end Sys2Proof.Tests
end

section
/-! SUPPORT. The DMA Engine's statements (40_dma_engine.md): the model's transfer and charge in the statements' own words, what a
transfer followed by a DRAIN does, and then OAMDMA, the effective addresses and DRAIN. -/

namespace Sys2Proof.Proofs

open Sys2Proof.Machine Sys2Proof.Statements

/-! ## The transfer and the charge in the statements' words -/

/-- The offset arithmetic of the model's `sourceAddr` is the one the statements write out. -/
theorem transferAccesses_eq_transferTrace (m : Memory) (n : Nat) (page : Byte) :
    transferAccesses m n page = transferTrace m n page := rfl

/-- `exec_oamdma_eq` in the statements' words. -/
theorem exec_oamdma_transferTrace (page : Byte) (s : State) :
    exec (.oamdma page) s = .next
      { s with
        dma := { s.dma with oamPending := true }
        reads := s.reads + 256
        accesses := s.accesses ++ transferTrace s.mem s.reads page } := by
  rw [exec_oamdma_eq, transferAccesses_eq_transferTrace]

/-- Of reads and pushes in turn the sink receives the pushed bytes, in the order of the offsets. -/
theorem sinkTrace_flatMap_read_push (addr : Nat → Addr) (v : Nat → Byte) (offsets : List Nat) :
    sinkTrace (offsets.flatMap fun k => [.memRead (addr k) (v k), .oamPush k (v k)]) = offsets.map v := by
  induction offsets with
  | nil => rfl
  | cons k offsets ih => simp [ih]

@[simp] theorem sinkTrace_transferTrace (m : Memory) (n : Nat) (page : Byte) :
    sinkTrace (transferTrace m n page) = (List.range 256).map (transferByte m n page) :=
  sinkTrace_flatMap_read_push _ _ _

theorem oamCharge_eq (pending : Bool) (parity : Nat) :
    oamCharge pending parity = if pending = true then 513 + parity % 2 else 0 := rfl

/-- A transfer and the DRAIN after it, whatever was pending before: one copy in full, one charge. -/
theorem execAll_oamdma_drain (page : Byte) (parity : Nat) (s : State) :
    execAll [.oamdma page, .drain parity] s = .next
      { s with
        dma := dmaDrained
        reads := s.reads + 256
        accesses := s.accesses ++ transferTrace s.mem s.reads page
        returned := s.returned ++ [.stolenCycles (s.dma.audioCycles + (513 + parity % 2))] } := by
  rw [execAll_cons_next (exec_oamdma_transferTrace page s), execAll_cons_next (exec_drain_eq parity _), execAll_nil]
  simp [oamCharge_eq]

/-! ## The encodings -/

theorem select_bw_oamdma (p : AddrMap) (page : Byte) : select p (.bw p.oamdma page) = .oamdma page := by
  simp [select, selectWrite]

theorem encode_oamdma_toNat (p : AddrMap) (page : Byte) :
    (encode p (.oamdma page)).toNat = 0x10000000 + p.oamdma.toNat * 2 ^ 8 + page.toNat :=
  pack_bw_toNat p.oamdma page

theorem encode_drain_toNat (p : AddrMap) {parity : Nat} (h : parity < 2 ^ 28) :
    (encode p (.drain parity)).toNat = 0x40000000 + parity := by
  rw [encode, Instr.toRecord, pack_dr_toNat, Nat.mod_eq_of_lt h]

/-! ## External accesses of the other operations -/

/-- Only an OAMDMA reads memory or pushes to the object table (40_dma_engine.md R69). -/
theorem exec_next_accesses_of_ne_oamdma {i : Instr} {s t : State} (h : exec i s = .next t)
    (hi : ∀ page, i ≠ .oamdma page) : t.accesses = s.accesses ∧ t.reads = s.reads := by
  rcases exec_next h with ⟨page, rfl, -⟩ | ⟨_, -, rfl⟩ | ⟨-, rfl⟩ | ⟨_, -, rfl⟩ | ⟨_, -, rfl⟩ | ⟨_, -, rfl⟩
  · exact absurd rfl (hi page)
  all_goals exact ⟨rfl, rfl⟩

/-! ## The statements -/

/-- Settles O13: the copy loop's closed form gives the next state; a second transfer followed by a DRAIN is
`execAll_oamdma_drain` from there, where the audio cycles and the values returned are still those of `s`. -/
theorem oamdmaCopiesThePageInOrder : Obligations.OamdmaCopiesThePageInOrder := by
  intro page s
  refine ⟨select_bw_oamdma s.addrs page, encode_oamdma_toNat s.addrs page, fun _ hk => sourceAddr_toNat page hk,
    _, exec_oamdma_transferTrace page s, rfl, ?_, fun page' parity => ⟨_, execAll_oamdma_drain page' parity _, ?_, rfl⟩⟩
  · rw [sinkTrace_append, sinkTrace_transferTrace]
  · rw [sinkTrace_append, sinkTrace_transferTrace]

/-- Settles O18: memory by `exec_keeps`, the transfer by OAMDMA's closed form, the other operations by what each can answer;
the state a fault leaves differs in `core.fault` only. -/
theorem onlyOamdmaAccessesMemory : Obligations.OnlyOamdmaAccessesMemory := by
  intro i s
  constructor
  · intro t h
    obtain ⟨-, -, -, hmem⟩ := exec_keeps h
    refine ⟨fun a => by rw [hmem], ?_, exec_next_accesses_of_ne_oamdma h⟩
    rintro page rfl
    rw [exec_oamdma_transferTrace] at h
    cases h
    rfl
  · intro info left h
    obtain ⟨_, hleft, -⟩ := exec_fault h
    cases hleft
    exact ⟨rfl, rfl, fun _ => rfl⟩

/-- Settles O16: DRAIN's closed form, used again from the state it leaves, where nothing is pending. -/
theorem drainReturnsTheSumAndClearsBoth : Obligations.DrainReturnsTheSumAndClearsBoth := by
  intro parity s
  refine ⟨rfl, encode_drain_toNat s.addrs, _, exec_drain_eq parity s, ?_, fun parity' => ?_⟩
  · rw [oamCharge_eq, dmaDrained]
  · rw [exec_drain_eq]
    simp [dmaDrained, oamCharge_eq]

end Sys2Proof.Proofs
end

section
/-! SUPPORT. The Controller Device's statements (41_controller.md): the read order as a list against the model's button bits, one
PADR and any number of them in Shifting mode, and then the button order and PADW. -/

namespace Sys2Proof.Proofs

open Sys2Proof.Machine Sys2Proof.Statements

/-! ## The read order and the returned bit in the statements' words -/

@[simp] theorem length_readOrder (b : Buttons) : (readOrder b).length = 8 := rfl

/-- The statements' list and the model's selection name the same button (41_controller.md R71). -/
theorem readOrder_getElem?_eq_btnBit (b : Buttons) (i : Fin 8) : (readOrder b)[i.val]? = some (btnBit b i) := by
  fin_cases i <;> rfl

theorem zext8_eq_bitByte (x : Bool) : zext8 x = bitByte x := rfl

theorem bitByte_getLsbD_zero (x : Bool) : (bitByte x).getLsbD 0 = x := by
  cases x <;> rfl

/-! ## Reads in Shifting mode -/

/-- A read with the cursor at a button returns it and moves the cursor on by one (41_controller.md R73). -/
theorem exec_padr_shifting {s : State} {x : Bool} (hm : s.pad.mode = .shifting)
    (hx : (readOrder s.btn)[s.pad.cursor]? = some x) :
    exec .padr s = .next
      { s with
        pad := { s.pad with cursor := s.pad.cursor + 1 }
        returned := s.returned ++ [.busData (bitByte x)] } := by
  have hlt : s.pad.cursor < 8 := (List.getElem?_eq_some_iff.1 hx).1
  have hbit : btnBit s.btn ⟨s.pad.cursor, hlt⟩ = x :=
    Option.some.inj ((readOrder_getElem?_eq_btnBit s.btn ⟨s.pad.cursor, hlt⟩).symm.trans hx)
  rcases padRead_cases s.pad s.btn with ⟨hl, -⟩ | ⟨-, _, hv, hq⟩ | ⟨-, hge, -⟩
  · rw [hm] at hl
    cases hl
  · rw [exec_padr_eq, hv, hq, hbit, zext8_eq_bitByte]
  · omega

/-- While the cursor has room for them, `n` reads return the next `n` buttons of the read order. -/
theorem execAll_padr_shifting (n : Nat) {s : State} (hm : s.pad.mode = .shifting) (hn : s.pad.cursor + n ≤ 8) :
    execAll (List.replicate n .padr) s = .next
      { s with
        pad := { s.pad with cursor := s.pad.cursor + n }
        returned := s.returned ++
          (((readOrder s.btn).drop s.pad.cursor).take n).map fun x => .busData (bitByte x) } := by
  induction n generalizing s with
  | zero => simp
  | succ n ih =>
    have hlt : s.pad.cursor < (readOrder s.btn).length := by
      rw [length_readOrder]
      omega
    rw [List.replicate_succ, execAll_cons_next (exec_padr_shifting hm (List.getElem?_eq_getElem hlt)), ih,
      List.drop_eq_getElem_cons hlt, List.take_succ_cons, List.map_cons]
    case hm => exact hm
    case hn =>
      show s.pad.cursor + 1 + n ≤ 8
      omega
    simp [Nat.add_assoc, Nat.add_comm 1]

/-! ## PADW -/

theorem select_bw_pad1 {p : AddrMap} (h : p.oamdma ≠ p.pad1) (v : Byte) : select p (.bw p.pad1 v) = .padw v := by
  simp [select, selectWrite, h.symm]

theorem encode_padw_toNat (p : AddrMap) (v : Byte) :
    (encode p (.padw v)).toNat = 0x10000000 + p.pad1.toNat * 2 ^ 8 + v.toNat :=
  pack_bw_toNat p.pad1 v

/-- With bit 0 of the stored byte clear the device is in Latching mode, where the cursor is 0 (10_state.md R29 (b), (c)). -/
theorem cursor_eq_zero_of_strobe_clear {q : Pad} (h : PadInv q) (hc : strobe q.ctrl = false) : q.cursor = 0 :=
  h.latching_cursor (h.latching_iff.2 hc)

/-! ## The statements -/

/-- Settles O23: the read order against the model's button bits, one read with the cursor at a button, and eight reads from
cursor 0, which take the whole list. -/
theorem buttonsAreReadInTheFixedOrder : Obligations.ButtonsAreReadInTheFixedOrder := by
  refine ⟨fun b => ⟨readOrder_getElem?_eq_btnBit b, rfl⟩,
    fun s x hm hx => ⟨_, bitByte x, exec_padr_shifting hm hx, rfl, bitByte_getLsbD_zero x⟩, fun s hm hc => ?_⟩
  have whole : ((readOrder s.btn).drop s.pad.cursor).take 8 = readOrder s.btn := by
    rw [hc]
    rfl
  refine ⟨_, (readOrder s.btn).map bitByte, execAll_padr_shifting 8 hm (by omega), ?_, ?_, ?_⟩
  · simp [whole]
  · have bit0 : (fun v : Byte => v.getLsbD 0) ∘ bitByte = id := funext bitByte_getLsbD_zero
    rw [List.map_map, bit0, List.map_id]
  · simp [hc]

/-- Settles O21: PADW's closed form, and what the device holds after it on each edge. -/
theorem padwActsOnEdgesOfBitZero : Obligations.PadwActsOnEdgesOfBitZero := by
  intro v s
  refine ⟨fun h => select_bw_pad1 h v, encode_padw_toNat s.addrs v, _, exec_padw_eq v s, rfl, padAfterWrite_ctrl s.pad v,
    fun ho hn => ?falling, fun ho hn => ?rising, fun h => ?unchanged⟩
  case falling => simp [padAfterWrite_falling ho hn]
  case rising => simpa [padAfterWrite_rising ho hn] using fun hi => cursor_eq_zero_of_strobe_clear hi ho
  case unchanged => simp [padAfterWrite_unchanged h]

end Sys2Proof.Proofs
end

section
/-! SUPPORT. The bus dispatch's statement (42_bus_dispatch.md): the operation a record write is at each address, and the step that
performs a record. -/

namespace Sys2Proof.Proofs

open Sys2Proof.Machine

/-! ## A record as the next request -/

/-- A record always is an operation (30_encoding.md R55), so the step performs it. -/
theorem step_record {s : State} {r : Record} {rest : List Request} (hf : s.fault = none)
    (hq : s.requests = .record r :: rest) : step s = exec (select s.addrs r) { s with requests := rest } :=
  step_operation hf hq rfl

/-- R83's last branch; `select_bw_oamdma` and `select_bw_pad1` are the other two. -/
theorem select_bw_unclaimed {p : AddrMap} {addr : Addr} (ho : addr ≠ p.oamdma) (hp : addr ≠ p.pad1) (data : Byte) :
    select p (.bw addr data) = .buswUnsup addr data := by
  simp [select, selectWrite, ho, hp]

/-! ## The statement -/

/-- Settles O11: the step performs the operation selected for the write, which R83's three branches name by its address. -/
theorem busWriteIsDispatchedByAddress : Obligations.BusWriteIsDispatchedByAddress := by
  intro s addr data rest hf hq
  rw [step_record hf hq]
  refine ⟨?oamdma, ?pad1, ?unclaimed⟩
  case oamdma =>
    rintro rfl
    rw [select_bw_oamdma]
  case pad1 =>
    rintro ho rfl
    rw [select_bw_pad1 ho.symm]
  case unclaimed =>
    intro ho hp
    rw [select_bw_unclaimed ho hp]

end Sys2Proof.Proofs
end

section
/-! SUPPORT. The exceptions' statement (60_exceptions.md): the operations that fault are the three of R90's table, in every state. -/

namespace Sys2Proof.Proofs

open Sys2Proof.Machine Sys2Proof.Statements

/-! ## The operations that fault -/

/-- The first three rows of R90's table: the operation faults, and `exec_fault` says with what information. -/
theorem exec_fault_of_isFaultOp {i : Instr} (hi : IsFaultOp i) (s : State) : ∃ f, exec i s = .fault f := by
  rcases hi with rfl | ⟨addr, data, rfl⟩ | ⟨addr, rfl⟩
  · exact ⟨_, exec_pad2r_eq s⟩
  · exact ⟨_, exec_buswUnsup_eq addr data s⟩
  · exact ⟨_, exec_busrUnsup_eq addr s⟩

/-- The last row of R90's table. -/
theorem exec_next_of_not_isFaultOp {i : Instr} (hi : ¬ IsFaultOp i) (s : State) : ∃ t, exec i s = .next t := by
  cases i with
  | oamdma page => exact ⟨_, exec_oamdma_eq page s⟩
  | padw v => exact ⟨_, exec_padw_eq v s⟩
  | padr => exact ⟨_, exec_padr_eq s⟩
  | addaud c => exact ⟨_, exec_addaud_eq c s⟩
  | drain q => exact ⟨_, exec_drain_eq q s⟩
  | setbtn m => exact ⟨_, exec_setbtn_eq m s⟩
  | pad2r => exact absurd (.inl rfl) hi
  | buswUnsup addr data => exact absurd (.inr (.inl ⟨addr, data, rfl⟩)) hi
  | busrUnsup addr => exact absurd (.inr (.inr ⟨addr, rfl⟩)) hi

/-- Whether an operation faults is read off the operation alone: the right side names no state. -/
theorem exec_fault_iff_isFaultOp (i : Instr) (s : State) : (∃ f, exec i s = .fault f) ↔ IsFaultOp i := by
  refine ⟨?_, fun hi => exec_fault_of_isFaultOp hi s⟩
  rintro ⟨f, h⟩
  obtain ⟨_, -, ⟨rfl, -⟩ | ⟨addr, data, rfl, -⟩ | ⟨addr, rfl, -⟩⟩ := exec_fault h
  · exact .inl rfl
  · exact .inr (.inl ⟨addr, data, rfl⟩)
  · exact .inr (.inr ⟨addr, rfl⟩)

/-! ## The statement -/

/-- Settles O37: the fault's information by `exec_fault`, one row of the table at a time; two states agree on whether an
operation faults because both agree with `IsFaultOp`. -/
theorem exactlyThreeOperationsFault : Obligations.ExactlyThreeOperationsFault := by
  intro i s
  refine ⟨fun hi => ?_, fun hi => exec_next_of_not_isFaultOp hi s, fun u => ?_⟩
  · obtain ⟨f, h⟩ := exec_fault_of_isFaultOp hi s
    obtain ⟨info, rfl, row⟩ := exec_fault h
    refine ⟨info, _, h, ?_⟩
    rcases row with ⟨rfl, rfl⟩ | ⟨addr, data, rfl, rfl⟩ | ⟨addr, rfl, rfl⟩ <;> simp
  · rw [exec_fault_iff_isFaultOp i s, exec_fault_iff_isFaultOp i u]

end Sys2Proof.Proofs
end

section
/-! SUPPORT. The encoding's statements (30_encoding.md): a word unpacks to a record exactly if it is the packed word of that
record; which words are refused, as numbers; the rows of the opcode table as conditions on the word's number. -/

namespace Sys2Proof.Proofs

open Sys2Proof.Machine

/-! ## The fields that decide, as conditions on the word's number (30_encoding.md R48) -/

theorem opField_eq_iff (w : Word) (op : BitVec 4) : opField w = op ↔ w.toNat / 2 ^ 28 = op.toNat := by
  have := w.isLt
  rw [← BitVec.toNat_inj, opField_toNat]
  omega

theorem zeroField_eq_zero_iff (w : Word) : zeroField w = 0#4 ↔ w.toNat / 2 ^ 24 % 16 = 0 := by
  rw [← BitVec.toNat_inj, zeroField_toNat]
  rfl

theorem dataField_eq_zero_iff (w : Word) : dataField w = 0#8 ↔ w.toNat % 256 = 0 := by
  rw [← BitVec.toNat_inj, dataField_toNat]
  rfl

theorem buttonZero_eq_zero_iff (w : Word) : buttonZero w = 0#20 ↔ w.toNat / 2 ^ 8 % 2 ^ 20 = 0 := by
  rw [← BitVec.toNat_inj, buttonZero_toNat]
  rfl

/-! ## Packing and unpacking are inverse to each other -/

/-- A packed record unpacks to itself: each field of the word, as a number, is the operand written there. -/
theorem unpack_pack {r : Record} (h : r.packable = true) : unpack (pack r) = .ok r := by
  cases r with
  | bw addr data =>
    have n := pack_bw_toNat addr data
    have op : opField (pack (.bw addr data)) = 0x1#4 := by rw [opField_eq_iff, n]; bv_omega
    have zero : zeroField (pack (.bw addr data)) = 0#4 := by rw [zeroField_eq_zero_iff, n]; omega
    have addr_eq : addrField (pack (.bw addr data)) = addr := BitVec.eq_of_toNat_eq (by rw [addrField_toNat, n]; omega)
    have data_eq : dataField (pack (.bw addr data)) = data := BitVec.eq_of_toNat_eq (by rw [dataField_toNat, n]; omega)
    simp [unpack, op, zero, addr_eq, data_eq]
  | br addr =>
    have n := pack_br_toNat addr
    have op : opField (pack (.br addr)) = 0x2#4 := by rw [opField_eq_iff, n]; bv_omega
    have zero : zeroField (pack (.br addr)) = 0#4 := by rw [zeroField_eq_zero_iff, n]; omega
    have data_eq : dataField (pack (.br addr)) = 0#8 := by rw [dataField_eq_zero_iff, n]; omega
    have addr_eq : addrField (pack (.br addr)) = addr := BitVec.eq_of_toNat_eq (by rw [addrField_toNat, n]; omega)
    simp [unpack, op, zero, addr_eq, data_eq]
  | aa cycles =>
    have n := pack_aa_toNat cycles
    have lt : cycles < 2 ^ 28 := by simpa [Record.packable] using h
    have op : opField (pack (.aa cycles)) = 0x3#4 := by rw [opField_eq_iff, n]; bv_omega
    have count : (countField (pack (.aa cycles))).toNat = cycles := by rw [countField_toNat, n]; omega
    simp [unpack, op, count]
  | dr parity =>
    have n := pack_dr_toNat parity
    have lt : parity < 2 ^ 28 := by simpa [Record.packable] using h
    have op : opField (pack (.dr parity)) = 0x4#4 := by rw [opField_eq_iff, n]; bv_omega
    have count : (countField (pack (.dr parity))).toNat = parity := by rw [countField_toNat, n]; omega
    simp [unpack, op, count]
  | sb mask =>
    have n := pack_sb_toNat mask
    have op : opField (pack (.sb mask)) = 0x5#4 := by rw [opField_eq_iff, n]; bv_omega
    have zero : buttonZero (pack (.sb mask)) = 0#20 := by rw [buttonZero_eq_zero_iff, n]; omega
    have data_eq : dataField (pack (.sb mask)) = mask := BitVec.eq_of_toNat_eq (by rw [dataField_toNat, n]; omega)
    simp [unpack, op, zero, data_eq]

/-- What unpacks is packable, and packing it gives the word back: the word's number is the sum of its fields. -/
theorem pack_of_unpack {w : Word} {r : Record} (h : unpack w = .ok r) : r.packable = true ∧ pack r = w := by
  unfold unpack at h
  simp only [opField_eq_iff, zeroField_eq_zero_iff, dataField_eq_zero_iff, buttonZero_eq_zero_iff] at h
  split at h
  next op =>
    split at h <;> cases h
    next zero =>
    refine ⟨rfl, BitVec.eq_of_toNat_eq ?_⟩
    rw [pack_bw_toNat, addrField_toNat, dataField_toNat]
    bv_omega
  split at h
  next op =>
    split at h <;> cases h
    next zero =>
    refine ⟨rfl, BitVec.eq_of_toNat_eq ?_⟩
    rw [pack_br_toNat, addrField_toNat]
    bv_omega
  split at h
  next op =>
    cases h
    refine ⟨by simp [Record.packable, countField_toNat]; omega, BitVec.eq_of_toNat_eq ?_⟩
    rw [pack_aa_toNat, countField_toNat]
    bv_omega
  split at h
  next op =>
    cases h
    refine ⟨by simp [Record.packable, countField_toNat]; omega, BitVec.eq_of_toNat_eq ?_⟩
    rw [pack_dr_toNat, countField_toNat]
    bv_omega
  split at h
  next op =>
    split at h <;> cases h
    next zero =>
    refine ⟨rfl, BitVec.eq_of_toNat_eq ?_⟩
    rw [pack_sb_toNat, dataField_toNat]
    bv_omega
  cases h

/-- The refused words, by the decoder's tests: on each of its branches the conditions decide the right side. -/
theorem unpack_error_iff (w : Word) :
    (∃ e, unpack w = .error e) ↔
      (w.toNat / 2 ^ 28 = 0 ∨ 6 ≤ w.toNat / 2 ^ 28 ∨
       (w.toNat / 2 ^ 28 = 1 ∧ w.toNat / 2 ^ 24 % 16 ≠ 0) ∨
       (w.toNat / 2 ^ 28 = 2 ∧ (w.toNat / 2 ^ 24 % 16 ≠ 0 ∨ w.toNat % 256 ≠ 0)) ∨
       (w.toNat / 2 ^ 28 = 5 ∧ w.toNat / 2 ^ 8 % 2 ^ 20 ≠ 0)) := by
  unfold unpack
  simp only [opField_eq_iff, zeroField_eq_zero_iff, dataField_eq_zero_iff, buttonZero_eq_zero_iff]
  split_ifs <;> simp at * <;> omega

/-! ## The decoder -/

theorem toRecord_packable (p : AddrMap) (i : Instr) : (i.toRecord p).packable = i.packable := by
  cases i <;> rfl

/-- `Laws.SelectRoundTrip` of every operation. -/
theorem select_toRecord {p : AddrMap} {i : Instr} (hp : p.Distinct) (hw : i.wf p = true) : select p (i.toRecord p) = i := by
  cases i with
  | oamdma page => exact Laws.SelectRoundTrip.oamdma page p hp hw
  | padw v => exact Laws.SelectRoundTrip.padw v p hp hw
  | buswUnsup addr data => exact Laws.SelectRoundTrip.buswUnsup addr data p hp hw
  | padr => exact Laws.SelectRoundTrip.padr p hp hw
  | pad2r => exact Laws.SelectRoundTrip.pad2r p hp hw
  | busrUnsup addr => exact Laws.SelectRoundTrip.busrUnsup addr p hp hw
  | addaud cycles => exact Laws.SelectRoundTrip.addaud cycles p hp hw
  | drain parity => exact Laws.SelectRoundTrip.drain parity p hp hw
  | setbtn mask => exact Laws.SelectRoundTrip.setbtn mask p hp hw

theorem decode_of_unpack_ok {w : Word} {r : Record} (p : AddrMap) (h : unpack w = .ok r) :
    decode p w = .ok (select p r) := by
  simp [decode, h]

theorem decode_error_iff (p : AddrMap) (w : Word) (e : Reject) : decode p w = .error e ↔ unpack w = .error e := by
  cases h : unpack w <;> simp [decode, h]

/-! ## The rows of the opcode table -/

/-- A write row with an address: format 1, the zero field, that address, any data. -/
theorem meets_write_row_iff (w : Word) (addr : Addr) :
    w &&& 0xFFFFFF00#32 = 0x10000000#32 ||| (addr.setWidth 32 <<< 8) ↔ w.toNat / 256 = 0x100000 + addr.toNat := by
  rw [← BitVec.toNat_inj, mask_high24_toNat, pattern_toNat _ addr (.inl rfl)]
  bv_omega

/-- A read row with an address fixes the whole word. -/
theorem meets_read_row_iff (w : Word) (addr : Addr) :
    w &&& 0xFFFFFFFF#32 = 0x20000000#32 ||| (addr.setWidth 32 <<< 8) ↔ w.toNat = 0x20000000 + addr.toNat * 256 := by
  rw [show w &&& 0xFFFFFFFF#32 = w from BitVec.and_allOnes, ← BitVec.toNat_inj, pattern_toNat _ addr (.inr rfl)]
  rfl

theorem meets_buswUnsup_row_iff (w : Word) : w &&& 0xFF000000#32 = 0x10000000#32 ↔ w.toNat / 2 ^ 24 = 0x10 := by
  rw [← BitVec.toNat_inj, mask_high8_toNat]
  bv_omega

theorem meets_busrUnsup_row_iff (w : Word) :
    w &&& 0xFF0000FF#32 = 0x20000000#32 ↔ w.toNat / 2 ^ 24 = 0x20 ∧ w.toNat % 256 = 0 := by
  rw [← BitVec.toNat_inj, mask_ends_toNat]
  bv_omega

theorem meets_addaud_row_iff (w : Word) : w &&& 0xF0000000#32 = 0x30000000#32 ↔ w.toNat / 2 ^ 28 = 3 := by
  rw [← BitVec.toNat_inj, mask_high4_toNat]
  bv_omega

theorem meets_drain_row_iff (w : Word) : w &&& 0xF0000000#32 = 0x40000000#32 ↔ w.toNat / 2 ^ 28 = 4 := by
  rw [← BitVec.toNat_inj, mask_high4_toNat]
  bv_omega

theorem meets_setbtn_row_iff (w : Word) : w &&& 0xFFFFFF00#32 = 0x50000000#32 ↔ w.toNat / 256 = 0x500000 := by
  rw [← BitVec.toNat_inj, mask_high24_toNat]
  bv_omega

/-- The first match of a list: its head if the head matches, else the first match of the rest. -/
theorem map_find?_cons {α β : Type} (f : α → β) (q : α → Bool) (a : α) (l : List α) :
    ((a :: l).find? q).map f = if q a = true then some (f a) else (l.find? q).map f := by
  by_cases h : q a = true
  · rw [List.find?_cons_of_pos h, if_pos h, Option.map_some]
  · rw [List.find?_cons_of_neg h, if_neg h]

/-- The table's order of priority, as a chain of conditions on the word's number. -/
theorem tableMnemonic_eq (p : AddrMap) (w : Word) :
    tableMnemonic p w =
      if w.toNat / 256 = 0x100000 + p.oamdma.toNat then some "OAMDMA"
      else if w.toNat / 256 = 0x100000 + p.pad1.toNat then some "PADW"
      else if w.toNat / 2 ^ 24 = 0x10 then some "BUSW.UNSUP"
      else if w.toNat = 0x20000000 + p.pad1.toNat * 256 then some "PADR"
      else if w.toNat = 0x20000000 + p.pad2.toNat * 256 then some "PAD2R"
      else if w.toNat / 2 ^ 24 = 0x20 ∧ w.toNat % 256 = 0 then some "BUSR.UNSUP"
      else if w.toNat / 2 ^ 28 = 3 then some "ADDAUD"
      else if w.toNat / 2 ^ 28 = 4 then some "DRAIN"
      else if w.toNat / 256 = 0x500000 then some "SETBTN"
      else none := by
  simp only [tableMnemonic, opcodeTable, map_find?_cons, beq_iff_eq, meets_write_row_iff, meets_read_row_iff,
    meets_buswUnsup_row_iff, meets_busrUnsup_row_iff, meets_addaud_row_iff, meets_drain_row_iff, meets_setbtn_row_iff,
    List.find?_nil, Option.map_none]

/-- The first row that a packed record meets is that of the operation it is: the rows of R55 stand in the table's order. -/
theorem tableMnemonic_pack (p : AddrMap) {r : Record} (h : r.packable = true) :
    tableMnemonic p (pack r) = some (select p r).mnemonic := by
  rw [tableMnemonic_eq]
  cases r with
  | bw addr data =>
    have n := pack_bw_toNat addr data
    have high24 : (pack (.bw addr data)).toNat / 256 = 0x100000 + addr.toNat := by omega
    have high8 : (pack (.bw addr data)).toNat / 2 ^ 24 = 0x10 := by omega
    rw [high24, high8]
    rcases selectWrite_cases p addr data with ⟨rfl, hs⟩ | ⟨ho, rfl, hs⟩ | ⟨ho, hp, hs⟩ <;>
      simp [select, Instr.mnemonic, BitVec.toNat_inj, *]
  | br addr =>
    have n := pack_br_toNat addr
    have not_write (a : Addr) : (pack (.br addr)).toNat / 256 ≠ 0x100000 + a.toNat := by omega
    have high8 : (pack (.br addr)).toNat / 2 ^ 24 = 0x20 := by omega
    have data : (pack (.br addr)).toNat % 256 = 0 := by omega
    rw [if_neg (not_write _), if_neg (not_write _), high8, data, n]
    rcases selectRead_cases p addr with ⟨rfl, hs⟩ | ⟨hp, rfl, hs⟩ | ⟨hp, hq, hs⟩ <;>
      simp [select, Instr.mnemonic, BitVec.toNat_inj, *]
  | aa cycles =>
    rw [pack_aa_toNat]
    iterate 6 rw [if_neg (by omega)]
    exact if_pos (by omega)
  | dr parity =>
    rw [pack_dr_toNat]
    iterate 7 rw [if_neg (by omega)]
    exact if_pos (by omega)
  | sb mask =>
    rw [pack_sb_toNat]
    iterate 8 rw [if_neg (by omega)]
    exact if_pos (by omega)

/-- A refused word meets no row. -/
theorem tableMnemonic_of_unpack_error (p : AddrMap) {w : Word} (h : ∃ e, unpack w = .error e) :
    tableMnemonic p w = none := by
  have bad := (unpack_error_iff w).1 h
  have := p.oamdma.isLt
  have := p.pad1.isLt
  have := p.pad2.isLt
  rw [tableMnemonic_eq]
  iterate 9 rw [if_neg (by omega)]

/-! ## The statements -/

/-- Settles O4: an operation is the selection of its own record, and unpacking undoes packing. -/
theorem decodeOfEncodeIsTheOperation : Obligations.DecodeOfEncodeIsTheOperation := by
  intro p i hp hw hk
  have unpacked : unpack (encode p i) = .ok (i.toRecord p) := unpack_pack (by rw [toRecord_packable, hk])
  rw [decode_of_unpack_ok p unpacked, select_toRecord hp hw]

/-- Settles O5: the decoded operation is selected for a record whose word this is, and its own record is that one. -/
theorem encodeOfDecodeIsTheWord : Obligations.EncodeOfDecodeIsTheWord := by
  intro p w i h
  obtain ⟨r, hr, rfl⟩ := decode_ok h
  obtain ⟨hk, hw⟩ := pack_of_unpack hr
  refine ⟨select_wf p r, ?_, ?_⟩
  · rw [← toRecord_packable p, toRecord_select, hk]
  · rw [encode, toRecord_select, hw]

/-- Settles O6: a word that decodes is a packed record, a refused one is known by its number. -/
theorem decodeAgreesWithOpcodeTable : Obligations.DecodeAgreesWithOpcodeTable := by
  intro p w
  constructor
  · intro i h
    obtain ⟨r, hr, rfl⟩ := decode_ok h
    obtain ⟨hk, rfl⟩ := pack_of_unpack hr
    exact tableMnemonic_pack p hk
  · intro e h
    exact tableMnemonic_of_unpack_error p ⟨e, (decode_error_iff p w e).1 h⟩

/-- Settles O7: the selection by address refuses nothing, so the refused words are those that do not unpack. -/
theorem malformedWordsAreRefused : Obligations.MalformedWordsAreRefused := by
  intro p w
  rw [← unpack_error_iff w]
  exact exists_congr (decode_error_iff p w)

/-- Settles O8: nine fixed words. -/
theorem writtenWordsDecode : Obligations.WrittenWordsDecode := by
  unfold Obligations.WrittenWordsDecode
  decide

end Sys2Proof.Proofs
end

section
/-! SUPPORT. The DMA Engine's statements about sequences (40_dma_engine.md sections 2 and 4, 10_state.md section 9): what one
operation adds to the engine, to the reads and to the trace, summed over a sequence; then ADDAUD and the engine's frame. -/

namespace Sys2Proof.Proofs

open Sys2Proof.Machine Sys2Proof.Statements

/-! ## The engine's two elements -/

/-- Any operation but a DRAIN adds its operand to the audio cycles and sets the pending flag if it is an OAMDMA. -/
theorem exec_dma_of_ne_drain {i : Instr} {s t : State} (hi : ∀ q, i ≠ .drain q) (h : exec i s = .next t) :
    t.dma = { audioCycles := s.dma.audioCycles + audioOperand i, oamPending := s.dma.oamPending || isOamdma i } := by
  rcases exec_next h with ⟨_, rfl, rfl⟩ | ⟨_, rfl, rfl⟩ | ⟨rfl, rfl⟩ | ⟨_, rfl, rfl⟩ | ⟨q, rfl, -⟩ | ⟨_, rfl, rfl⟩
  case inr.inr.inr.inr.inl => exact absurd rfl (hi q)
  all_goals simp [audioOperand, isOamdma]

/-- The engine after a sequence without a DRAIN (10_state.md R29 (d), (e)). -/
theorem execAll_dma_of_no_drain {is : List Instr} {s t : State} (hi : ∀ i ∈ is, ∀ q, i ≠ .drain q)
    (h : execAll is s = .next t) :
    t.dma =
      { audioCycles := s.dma.audioCycles + (is.map audioOperand).sum
        oamPending := s.dma.oamPending || is.any isOamdma } := by
  induction is generalizing s with
  | nil => cases h; simp
  | cons i is ih =>
    obtain ⟨u, hu, ht⟩ := execAll_cons_inv h
    obtain ⟨head, tail⟩ := List.forall_mem_cons.1 hi
    rw [ih tail ht, exec_dma_of_ne_drain head hu]
    simp [Nat.add_assoc, Bool.or_assoc]

theorem any_isOamdma_iff (is : List Instr) : is.any isOamdma = true ↔ ∃ page, Instr.oamdma page ∈ is := by
  rw [List.any_eq_true]
  constructor
  · rintro ⟨i, mem, hi⟩
    cases i with
    | oamdma page => exact ⟨page, mem⟩
    | _ => cases hi
  · rintro ⟨page, mem⟩
    exact ⟨_, mem, rfl⟩

/-! ## The reads and the trace -/

theorem length_flatMap_read_push (addr : Nat → Addr) (v : Nat → Byte) (offsets : List Nat) :
    (offsets.flatMap fun k => [Access.memRead (addr k) (v k), .oamPush k (v k)]).length = 2 * offsets.length := by
  induction offsets with
  | nil => rfl
  | cons k offsets ih => simp [ih]; omega

theorem length_transferTrace (m : Memory) (n : Nat) (page : Byte) : (transferTrace m n page).length = 512 :=
  (length_flatMap_read_push _ _ _).trans (by rw [List.length_range])

/-- An OAMDMA answers 256 reads and pushes 256 bytes; no other operation does either. -/
theorem exec_access_counts {i : Instr} {s t : State} (h : exec i s = .next t) :
    t.reads = s.reads + 256 * (if isOamdma i then 1 else 0) ∧
    t.accesses.length = s.accesses.length + 512 * (if isOamdma i then 1 else 0) ∧
    (sinkTrace t.accesses).length = (sinkTrace s.accesses).length + 256 * (if isOamdma i then 1 else 0) := by
  rcases exec_next h with ⟨page, rfl, rfl⟩ | ⟨_, rfl, rfl⟩ | ⟨rfl, rfl⟩ | ⟨_, rfl, rfl⟩ | ⟨_, rfl, rfl⟩ | ⟨_, rfl, rfl⟩
  case inl => simp [isOamdma, transferAccesses_eq_transferTrace, length_transferTrace]
  all_goals simp [isOamdma]

/-- With the page placed, every byte of a transfer is the placed one, whichever read it answers. -/
theorem transferByte_of_placed {m : Memory} {page : Byte} {f : Nat → Byte}
    (h : ∀ k, k < 256 → Memory.lookup m (page.toNat * 256 + k) = some (f k)) (n : Nat) {k : Nat} (hk : k < 256) :
    transferByte m n page k = f k :=
  memAnswer_listed (n + k) ((congrArg (Memory.lookup m) (sourceAddr_toNat page hk)).trans (h k hk))

theorem encode_addaud_toNat (p : AddrMap) {cycles : Nat} (h : cycles < 2 ^ 28) :
    (encode p (.addaud cycles)).toNat = 0x30000000 + cycles := by
  rw [encode, Instr.toRecord, pack_aa_toNat, Nat.mod_eq_of_lt h]

/-! ## What the engine's operations leave -/

/-- What the environment has fixed answers alike before and after any operation that completes. -/
theorem exec_memReadValue_listed {i : Instr} {s t : State} (h : exec i s = .next t) {addr : Addr} {v : Byte}
    (hv : Memory.lookup s.mem addr.toNat = some v) : memReadValue t addr = memReadValue s addr := by
  obtain ⟨-, -, -, mem⟩ := exec_keeps h
  rw [memReadValue, memReadValue, mem, memAnswer_listed _ hv, memAnswer_listed _ hv]

/-- So does every address, after an operation that answers no read. -/
theorem exec_memReadValue_of_ne_oamdma {i : Instr} {s t : State} (h : exec i s = .next t) (hi : ∀ page, i ≠ .oamdma page)
    (addr : Addr) : memReadValue t addr = memReadValue s addr := by
  obtain ⟨-, -, -, mem⟩ := exec_keeps h
  obtain ⟨-, reads⟩ := exec_next_accesses_of_ne_oamdma h hi
  rw [memReadValue, memReadValue, mem, reads]

/-- An operation of the DMA Engine leaves the Controller Device and the buttons. -/
theorem exec_dmaOp_keeps_pad {i : Instr} {s t : State} (hi : IsDmaOp i) (h : exec i s = .next t) :
    t.pad = s.pad ∧ t.btn = s.btn := by
  rcases hi with ⟨page, rfl⟩ | ⟨c, rfl⟩ | ⟨q, rfl⟩
  · rw [exec_oamdma_eq] at h; cases h; exact ⟨rfl, rfl⟩
  · rw [exec_addaud_eq] at h; cases h; exact ⟨rfl, rfl⟩
  · rw [exec_drain_eq] at h; cases h; exact ⟨rfl, rfl⟩

/-! ## The statements -/

/-- Settles O19: the engine after the sequence, and DRAIN's closed form from there. -/
theorem drainReportsAllSinceTheLastDrain : Obligations.DrainReportsAllSinceTheLastDrain := by
  intro is s t hi h
  have dma := execAll_dma_of_no_drain hi h
  refine ⟨by rw [dma], ?_, fun parity => ⟨_, exec_drain_eq parity t, rfl, ?_⟩⟩
  · rw [dma, Bool.or_eq_true, any_isOamdma_iff]
  · rw [dma, oamCharge_eq]
    simp only [Bool.or_eq_true]

/-- Settles O20: one operation's counts, summed over the sequence. -/
theorem everyTriggerCopiesInFull : Obligations.EveryTriggerCopiesInFull := by
  intro is s t h
  induction is generalizing s with
  | nil => cases h; simp
  | cons i is ih =>
    obtain ⟨u, hu, ht⟩ := execAll_cons_inv h
    obtain ⟨reads, accesses, sink⟩ := exec_access_counts hu
    obtain ⟨reads', accesses', sink'⟩ := ih u ht
    rw [List.countP_cons]
    omega

/-- Settles O14: OAMDMA's closed form, each transferred byte being the placed one. -/
theorem transferDeliversThePlacedPage : Obligations.TransferDeliversThePlacedPage := by
  intro page s f placed
  refine ⟨_, exec_oamdma_transferTrace page s, ?_⟩
  rw [sinkTrace_append, sinkTrace_transferTrace]
  congr 1
  exact List.map_congr_left fun k hk => transferByte_of_placed placed s.reads (List.mem_range.1 hk)

/-- Settles O15: ADDAUD's closed form, once, with operand 0, and twice. -/
theorem addaudAddsExactly : Obligations.AddaudAddsExactly := by
  intro c s
  refine ⟨rfl, encode_addaud_toNat s.addrs, exec_addaud_eq c s, exec_addaud_eq 0 s, fun d => ?_⟩
  rw [execAll_cons_next (exec_addaud_eq c s), execAll_cons_next (exec_addaud_eq d _), execAll_nil]
  simp [Nat.add_assoc]

/-- Settles O17: what every operation keeps, what the engine's operations keep beyond it, and the closed forms of OAMDMA and
ADDAUD for what those two leave. -/
theorem dmaOperationsFrame : Obligations.DmaOperationsFrame := by
  intro i s t hi h
  obtain ⟨addrs, requests, fault, mem⟩ := exec_keeps h
  obtain ⟨pad, btn⟩ := exec_dmaOp_keeps_pad hi h
  refine ⟨pad, fault, btn, addrs, requests, fun a => by rw [mem], fun _ _ => exec_memReadValue_listed h, ?oamdma, ?addaud,
    fun hne => ?others⟩
  case oamdma =>
    rintro ⟨page, rfl⟩
    rw [exec_oamdma_eq] at h
    cases h
    exact ⟨rfl, rfl⟩
  case addaud =>
    rintro ⟨c, rfl⟩
    rw [exec_addaud_eq] at h
    cases h
    exact ⟨rfl, rfl⟩
  case others =>
    obtain ⟨accesses, reads⟩ := exec_next_accesses_of_ne_oamdma h hne
    exact ⟨accesses, reads, exec_memReadValue_of_ne_oamdma h hne⟩

end Sys2Proof.Proofs
end

section
/-! SUPPORT. The machine's statements: the invariant and reset (10_state.md sections 8 and 9), the step and its dispatch
(30_encoding.md section 3, 42_bus_dispatch.md), what a fault leaves, and runs of claimed requests (42_bus_dispatch.md R88). -/

namespace Sys2Proof.Proofs

open Sys2Proof.Machine Sys2Proof.Statements

/-! ## The invariant -/

theorem padAfterWrite_inv {q : Pad} (h : PadInv q) (v : Byte) : PadInv (padAfterWrite q v) := by
  rcases padAfterWrite_cases q v with ⟨-, hv, e⟩ | ⟨-, hv, e⟩ | ⟨hv, e⟩ <;> rw [e]
  · exact ⟨Nat.zero_le 8, fun _ => rfl, by simp [hv]⟩
  · exact ⟨h.cursor_le, by simp, by simp [hv]⟩
  · exact ⟨h.cursor_le, h.latching_cursor, hv ▸ h.latching_iff⟩

theorem padAfterRead_inv {q : Pad} (h : PadInv q) : PadInv (padAfterRead q) := by
  rcases padRead_cases q default with ⟨-, -, e⟩ | ⟨hm, hlt, -, e⟩ | ⟨-, -, -, e⟩ <;> rw [e]
  · exact h
  · exact ⟨hlt, by simp [hm], h.latching_iff⟩
  · exact h

theorem exec_padInv {i : Instr} {s t : State} (hs : PadInv s.pad) (h : exec i s = .next t) : PadInv t.pad := by
  rcases exec_next h with ⟨_, -, rfl⟩ | ⟨v, -, rfl⟩ | ⟨-, rfl⟩ | ⟨_, -, rfl⟩ | ⟨_, -, rfl⟩ | ⟨_, -, rfl⟩
  case inr.inl => exact padAfterWrite_inv hs v
  case inr.inr.inl => exact padAfterRead_inv hs
  all_goals exact hs

theorem exec_inv {i : Instr} {s t : State} (hs : s.Inv) (h : exec i s = .next t) : t.Inv := by
  obtain ⟨addrs, -, -, mem⟩ := exec_keeps h
  exact ⟨exec_padInv hs.pad h, mem ▸ hs.mem, addrs ▸ hs.addrs⟩

/-- The invariant looks at neither the requests nor the fault record. -/
theorem inv_setRequests {s : State} (hs : s.Inv) (rest : List Request) : (s.setRequests rest).Inv :=
  ⟨hs.pad, hs.mem, hs.addrs⟩

/-- Every fault of a step is that of the operation it performed. -/
theorem step_fault {s : State} {f : Fault} (h : step s = .fault f) :
    ∃ q rest i, s.requests = q :: rest ∧ decodeRequest s.addrs q = .ok i ∧ exec i (s.setRequests rest) = .fault f := by
  unfold step at h
  cases hs : fetch s with
  | stopped => simp [hs] at h
  | idle => simp [hs] at h
  | rejected r => simp [hs] at h
  | operation i t =>
    obtain ⟨-, q, rest, hq, hd, rfl⟩ := fetch_operation hs
    exact ⟨q, rest, i, hq, hd, by simpa [hs] using h⟩

/-- Settles O3: the requests left and the fault recorded are no part of the invariant, and an operation that completes keeps
it. -/
theorem everyStepKeepsInvariant : Obligations.EveryStepKeepsInvariant := by
  intro s hs
  constructor
  · intro t h
    obtain ⟨-, ⟨-, rfl⟩ | ⟨q, rest, i, -, -, he⟩⟩ := step_next h
    · exact hs
    · exact exec_inv (inv_setRequests hs rest) he
  · intro info left h
    obtain ⟨q, rest, i, -, -, he⟩ := step_fault h
    obtain ⟨_, e, -⟩ := exec_fault he
    cases e
    exact ⟨hs.pad, hs.mem, hs.addrs⟩

/-! ## Reset -/

/-- Settles O2: the Controller Device and the addresses are fixed at reset, and no byte of memory is. -/
theorem invariantHoldsAtReset : Obligations.InvariantHoldsAtReset :=
  ⟨⟨by decide, by decide, by decide⟩, reset_mem_wf, by decide⟩

/-- Settles O1: the values reset writes, and DRAIN's closed form on them. -/
theorem resetHoldsTheSpecsValues : Obligations.ResetHoldsTheSpecsValues :=
  ⟨rfl, rfl, rfl, rfl, rfl, rfl, fun parity => ⟨_, exec_drain_eq parity State.reset, rfl⟩⟩

/-! ## The step -/

/-- Settles O9: a record always is an operation, a packed word where it decodes. -/
theorem stepPerformsTheNextRequest : Obligations.StepPerformsTheNextRequest := by
  intro s q rest hf hq
  constructor
  · rintro r rfl
    exact step_record hf hq
  · rintro w i rfl hd
    exact step_operation hf hq hd

/-- Settles O10: the three ways in which the block finds no operation. -/
theorem stepRefusesOrIdles : Obligations.StepRefusesOrIdles := by
  intro s
  refine ⟨fun f hf => ?stopped, fun hf hq => ?idle, fun w rest e hf hq hd => ?rejected⟩
  case stopped => rw [step, fetch_of_fault hf]
  case idle => rw [step, fetch_of_idle hf hq]
  case rejected =>
    have malformed : decodeRequest s.addrs (.packed w) = .error e := hd
    rw [step, fetch_of_request hf hq, malformed]

theorem select_br_pad1 (p : AddrMap) : select p (.br p.pad1) = .padr := by
  simp [select, selectRead]

theorem select_br_unclaimed {p : AddrMap} {addr : Addr} (h₁ : addr ≠ p.pad1) (h₂ : addr ≠ p.pad2) :
    select p (.br addr) = .busrUnsup addr := by
  simp [select, selectRead, h₁, h₂]

/-- A read of any address but `ADDR_PAD1` faults with that address, be it PAD2R or BUSR.UNSUP. -/
theorem exec_select_br_of_ne_pad1 {s : State} {addr : Addr} (h : addr ≠ s.addrs.pad1) :
    exec (select s.addrs (.br addr)) s = raiseUnsupported .read addr s := by
  rcases selectRead_cases s.addrs addr with ⟨h₁, -⟩ | ⟨-, rfl, e⟩ | ⟨-, -, e⟩
  · exact absurd h₁ h
  · rw [select, e, exec_pad2r_eq]
  · rw [select, e, exec_busrUnsup_eq]

/-- Settles O12: the step performs the operation selected for the read, from a state with no fault recorded. -/
theorem busReadIsDispatchedByAddress : Obligations.BusReadIsDispatchedByAddress := by
  intro s addr rest hf hq
  rw [step_record hf hq]
  refine ⟨?pad1, fun h => ?other⟩
  case pad1 =>
    rintro rfl
    rw [select_br_pad1]
  case other =>
    rw [exec_select_br_of_ne_pad1 (s := { s with requests := rest }) h, raiseUnsupported_eq, hf, Option.getD_none]

/-! ## The faults -/

/-- Settles O34: the fault's closed form. -/
theorem padTwoReadAlwaysFaults : Obligations.PadTwoReadAlwaysFaults := by
  intro s
  refine ⟨_, (exec_pad2r_eq s).trans (raiseUnsupported_eq _ _ s), rfl, fun h => ?_, fun f h => ?_⟩ <;> simp [h]

theorem encode_buswUnsup_toNat (p : AddrMap) (addr : Addr) (data : Byte) :
    (encode p (.buswUnsup addr data)).toNat = 0x10000000 + addr.toNat * 2 ^ 8 + data.toNat :=
  pack_bw_toNat addr data

theorem encode_busrUnsup_toNat (p : AddrMap) (addr : Addr) :
    (encode p (.busrUnsup addr)).toNat = 0x20000000 + addr.toNat * 2 ^ 8 :=
  pack_br_toNat addr

/-- Settles O35: R83's last branch, taken at `ADDR_PAD2` where the addresses are distinct, and the fault's closed form. -/
theorem unclaimedWriteAlwaysFaults : Obligations.UnclaimedWriteAlwaysFaults := by
  intro addr data s
  exact ⟨fun ho hp => select_bw_unclaimed ho hp data,
    fun ⟨_, ho, hp⟩ => select_bw_unclaimed ho.symm hp.symm data, encode_buswUnsup_toNat s.addrs addr data,
    _, (exec_buswUnsup_eq addr data s).trans (raiseUnsupported_eq _ _ s), rfl, fun h => by simp [h]⟩

/-- Settles O36: R84's last branch, taken at `ADDR_OAMDMA` where the addresses are distinct, and the fault's closed form. -/
theorem unclaimedReadAlwaysFaults : Obligations.UnclaimedReadAlwaysFaults := by
  intro addr s
  exact ⟨select_br_unclaimed, fun ⟨hp, hq, _⟩ => select_br_unclaimed hp hq, encode_busrUnsup_toNat s.addrs addr,
    _, (exec_busrUnsup_eq addr s).trans (raiseUnsupported_eq _ _ s), rfl, fun h => by simp [h]⟩

/-- Settles O38: what `exec_fault` says a fault leaves, and that no operation writes the fault record. -/
theorem faultIsPreciseAndSticky : Obligations.FaultIsPreciseAndSticky := by
  intro i s
  constructor
  · intro info left h
    obtain ⟨_, e, -⟩ := exec_fault h
    cases e
    exact ⟨rfl, rfl⟩
  · intro t h
    obtain ⟨-, -, fault, -⟩ := exec_keeps h
    exact ⟨fault, by rw [faultCode, faultCode, fault]⟩

/-! ## Claimed accesses -/

theorem exec_next_iff_not_isFaultOp (i : Instr) (s : State) : (∃ t, exec i s = .next t) ↔ ¬ IsFaultOp i := by
  refine ⟨?_, fun hi => exec_next_of_not_isFaultOp hi s⟩
  rintro ⟨t, h⟩ hi
  obtain ⟨f, hf⟩ := exec_fault_of_isFaultOp hi s
  rw [h] at hf
  cases hf

/-- The records that raise no fault are the claimed ones (42_bus_dispatch.md R88). -/
theorem isFaultOp_select_iff (p : AddrMap) (r : Record) : IsFaultOp (select p r) ↔ recordClaimed p r = false := by
  cases r with
  | bw addr data =>
    rcases selectWrite_cases p addr data with ⟨rfl, e⟩ | ⟨-, rfl, e⟩ | ⟨ho, hp, e⟩ <;>
      simp [select, IsFaultOp, recordClaimed, *]
  | br addr =>
    rcases selectRead_cases p addr with ⟨rfl, e⟩ | ⟨hp, -, e⟩ | ⟨hp, -, e⟩ <;>
      simp [select, IsFaultOp, recordClaimed, *]
  | aa cycles => simp [select, IsFaultOp, recordClaimed]
  | dr parity => simp [select, IsFaultOp, recordClaimed]
  | sb mask => simp [select, IsFaultOp, recordClaimed]

theorem exec_select_next_iff (p : AddrMap) (r : Record) (s : State) :
    (∃ t, exec (select p r) s = .next t) ↔ recordClaimed p r = true := by
  rw [exec_next_iff_not_isFaultOp, isFaultOp_select_iff, Bool.not_eq_false]

/-- Settles O39: the claimed records, read off `recordClaimed`. -/
theorem exactlyThreeBusAccessesAreAccepted : Obligations.ExactlyThreeBusAccessesAreAccepted := by
  intro s
  refine ⟨fun addr data => ?write, fun addr => ?read, fun r hw hr => ?other⟩
  case write => simp [exec_select_next_iff, recordClaimed]
  case read => simp [exec_select_next_iff, recordClaimed]
  case other =>
    rw [exec_select_next_iff]
    cases r with
    | bw addr data => exact absurd rfl (hw addr data)
    | br addr => exact absurd rfl (hr addr)
    | aa cycles => rfl
    | dr parity => rfl
    | sb mask => rfl

/-- A claimed request is an operation, and one that completes. -/
theorem decodeRequest_of_claimed {p : AddrMap} {q : Request} (h : requestClaimed p q = true) (s : State) :
    ∃ i, decodeRequest p q = .ok i ∧ ∃ t, exec i s = .next t := by
  cases q with
  | record r => exact ⟨select p r, rfl, (exec_select_next_iff p r s).2 h⟩
  | packed w =>
    cases hu : unpack w with
    | ok r =>
      have claimed : recordClaimed p r = true := by simpa [requestClaimed, hu] using h
      exact ⟨select p r, decode_of_unpack_ok p hu, (exec_select_next_iff p r s).2 claimed⟩
    | error e => simp [requestClaimed, hu] at h

/-- From a safe state the step performs the next request, if there is one, and the state is safe again. -/
theorem step_of_safe {s : State} (hs : s.Safe) : ∃ t, step s = .next t ∧ t.Safe ∧ t.requests = s.requests.drop 1 := by
  obtain ⟨hf, claimed⟩ := hs
  cases hq : s.requests with
  | nil =>
    exact ⟨s, by rw [step, fetch_of_idle hf hq], ⟨hf, claimed⟩, hq⟩
  | cons q rest =>
    rw [hq] at claimed
    obtain ⟨head, tail⟩ := List.forall_mem_cons.1 claimed
    obtain ⟨i, hd, t, ht⟩ := decodeRequest_of_claimed head (s.setRequests rest)
    obtain ⟨addrs, requests, fault, -⟩ := exec_keeps ht
    refine ⟨t, (step_operation hf hq hd).trans ht, ⟨fault.trans hf, ?_⟩, requests⟩
    rw [addrs, requests]
    exact tail

/-- Settles O40: `step_of_safe` along the run. -/
theorem claimedRequestsNeverFault : Obligations.ClaimedRequestsNeverFault := by
  intro n
  induction n with
  | zero => exact fun s hs => ⟨s, rfl, hs, rfl⟩
  | succ n ih =>
    intro s hs
    obtain ⟨t, ht, safe, requests⟩ := step_of_safe hs
    obtain ⟨u, hu, safe', requests'⟩ := ih t safe
    refine ⟨u, (run_succ_of_next n ht).trans hu, safe', ?_⟩
    rw [requests', requests, List.drop_drop, Nat.add_comm]

end Sys2Proof.Proofs
end

section
/-! SUPPORT. The Controller Device's statements (41_controller.md): one PADR in each mode, sequences of reads with the buttons
changing between them, the transition table, REARM and LATCH, and the pseudo-operations DMA and PRESS (30_encoding.md R59). -/

namespace Sys2Proof.Proofs

open Sys2Proof.Machine Sys2Proof.Statements

/-! ## One read in Latching mode, and one with the cursor exhausted; `exec_padr_shifting` is the third -/

theorem exec_padr_latching {s : State} (hm : s.pad.mode = .latching) :
    exec .padr s = .next { s with returned := s.returned ++ [.busData (bitByte s.btn.a)] } := by
  simp [exec_padr_eq, padReadValue, padAfterRead, hm, btnBit, buttonAt, pressed, zext8_eq_bitByte]

theorem exec_padr_exhausted {s : State} (hm : s.pad.mode = .shifting) (hc : 8 ≤ s.pad.cursor) :
    exec .padr s = .next { s with returned := s.returned ++ [.busData 0x01] } := by
  simp [exec_padr_eq, padReadValue, padAfterRead, hm, Nat.not_lt.2 hc, Config.padExhaustedValue, Config.cursorMax]

/-- Settles O22: Latching, Shifting with the cursor at a button, Shifting with the cursor exhausted. -/
theorem padrReturnsTheNextButton : Obligations.PadrReturnsTheNextButton := by
  intro s
  cases hm : s.pad.mode with
  | latching => exact ⟨_, _, exec_padr_latching hm, rfl, fun _ => ⟨rfl, rfl⟩, by simp, by simp⟩
  | shifting =>
    by_cases hc : s.pad.cursor < 8
    · have at_button := List.getElem?_eq_getElem (l := readOrder s.btn) hc
      refine ⟨_, _, exec_padr_shifting hm at_button, rfl, by simp, fun _ x hx => ?_, fun _ _ => by omega⟩
      rw [at_button] at hx
      cases hx
      exact ⟨rfl, rfl⟩
    · have past : (readOrder s.btn)[s.pad.cursor]? = none := List.getElem?_eq_none (Nat.le_of_not_lt hc)
      exact ⟨_, _, exec_padr_exhausted hm (Nat.le_of_not_lt hc), rfl, by simp, by simp [past], fun _ _ => ⟨rfl, rfl⟩⟩

/-! ## The buttons of a mask -/

theorem readOrder_buttonsOfMask (m : Byte) : readOrder (buttonsOfMask m) = (List.range 8).map fun i => m.getLsbD i := rfl

/-- Settles O24: SETBTN's closed form; the mask's bits in read order. -/
theorem setbtnSetsTheEightInputs : Obligations.SetbtnSetsTheEightInputs := fun m s =>
  ⟨_, exec_setbtn_eq m s, rfl, readOrder_buttonsOfMask m⟩

theorem readOrder_buttonsOfMask_getElem? (m : Byte) {i : Nat} (hi : i < 8) :
    (readOrder (buttonsOfMask m))[i]? = some (m.getLsbD i) := by
  simp [readOrder_buttonsOfMask, hi]

/-! ## The frame -/

theorem exec_padOp_keeps_dma {i : Instr} {s t : State} (hi : IsPadOp i) (h : exec i s = .next t) : t.dma = s.dma := by
  rcases hi with ⟨v, rfl⟩ | rfl | ⟨m, rfl⟩ <;> cases h <;> rfl

theorem ne_oamdma_of_isPadOp {i : Instr} (hi : IsPadOp i) (page : Byte) : i ≠ .oamdma page := by
  rcases hi with ⟨v, rfl⟩ | rfl | ⟨m, rfl⟩ <;> simp

/-- A read moves at most the cursor. -/
theorem padAfterRead_keeps (q : Pad) : (padAfterRead q).ctrl = q.ctrl ∧ (padAfterRead q).mode = q.mode := by
  rcases padRead_cases q default with ⟨-, -, e⟩ | ⟨-, -, -, e⟩ | ⟨-, -, -, e⟩ <;> rw [e] <;> exact ⟨rfl, rfl⟩

/-- Settles O25: what every operation keeps, what an operation that is no OAMDMA keeps, and the three closed forms. -/
theorem padOperationsFrame : Obligations.PadOperationsFrame := by
  intro i s t hi h
  obtain ⟨addrs, requests, fault, mem⟩ := exec_keeps h
  obtain ⟨accesses, reads⟩ := exec_next_accesses_of_ne_oamdma h (ne_oamdma_of_isPadOp hi)
  refine ⟨exec_padOp_keeps_dma hi h, fault, addrs, requests, accesses, reads, fun a => by rw [mem],
    exec_memReadValue_of_ne_oamdma h (ne_oamdma_of_isPadOp hi), ?_⟩
  rcases hi with ⟨v, rfl⟩ | rfl | ⟨m, rfl⟩
  · rw [exec_padw_eq] at h
    cases h
    simp
  · rw [exec_padr_eq] at h
    cases h
    simpa using padAfterRead_keeps s.pad
  · rw [exec_setbtn_eq] at h
    cases h
    simp

/-! ## The transition table -/

theorem padView_eq_iff (q : Pad) (m : PadMode) (b : Bool) (c : Nat) :
    padView q = (m, b, c) ↔ q.mode = m ∧ strobe q.ctrl = b ∧ q.cursor = c := by
  simp [padView, strobe]

/-- Only the table's rows are reachable (41_controller.md section 6). -/
theorem padView_of_inv {q : Pad} (h : PadInv q) :
    (∃ c, c ≤ 8 ∧ padView q = (.shifting, true, c)) ∨ padView q = (.latching, false, 0) := by
  simp only [padView_eq_iff]
  cases hm : q.mode with
  | latching => exact .inr ⟨rfl, h.latching_iff.1 hm, h.latching_cursor hm⟩
  | shifting =>
    have set : strobe q.ctrl = true := by
      rw [← Bool.not_eq_false, ← h.latching_iff, hm]
      simp
    exact .inl ⟨q.cursor, h.cursor_le, rfl, set, rfl⟩

/-- Settles O26: the rows of PADW by the edge, those of PADR by the mode and the cursor; the other operations leave the
device. -/
theorem controllerFollowsTheTransitionTable : Obligations.ControllerFollowsTheTransitionTable := by
  intro s inv
  refine ⟨padView_of_inv inv, fun v c => ⟨_, exec_padw_eq v s, ?padw⟩, ?padr, fun i t hi h => ?keeps,
    fun i hi => ?fault⟩
  case padw =>
    simp only [padView_eq_iff]
    refine ⟨?_, ?_, ?_, ?_⟩ <;> rintro ⟨hm, hc, hk⟩ hv
    · rw [padAfterWrite_unchanged (hc.trans hv.symm)]
      exact ⟨hm, hv, hk⟩
    · rw [padAfterWrite_falling hc hv]
      exact ⟨rfl, hv, rfl⟩
    · rw [padAfterWrite_unchanged (hc.trans hv.symm)]
      exact ⟨hm, hv, hk⟩
    · rw [padAfterWrite_rising hc hv]
      exact ⟨rfl, hv, hk⟩
  case padr =>
    obtain ⟨t, ht⟩ : ∃ t, exec .padr s = .next t := ⟨_, exec_padr_eq s⟩
    simp only [padView_eq_iff]
    refine fun c => ⟨t, ht, ?at_button, ?exhausted, ?latching⟩
    case at_button =>
      rintro x ⟨hm, hc, rfl⟩ hx
      rw [exec_padr_shifting hm hx] at ht
      cases ht
      exact ⟨⟨hm, hc, rfl⟩, rfl⟩
    case exhausted =>
      rintro ⟨hm, hc, hk⟩
      rw [exec_padr_exhausted hm (Nat.le_of_eq hk.symm)] at ht
      cases ht
      exact ⟨⟨hm, hc, hk⟩, rfl⟩
    case latching =>
      rintro ⟨hm, hc, hk⟩
      rw [exec_padr_latching hm] at ht
      cases ht
      exact ⟨⟨hm, hc, hk⟩, rfl⟩
  case keeps =>
    rcases hi with hi | ⟨m, rfl⟩
    · exact (exec_dmaOp_keeps_pad hi h).1
    · cases h
      rfl
  case fault =>
    obtain ⟨f, h⟩ := exec_fault_of_isFaultOp hi s
    obtain ⟨info, rfl, -⟩ := exec_fault h
    exact ⟨info, _, h, rfl, rfl⟩

/-- Settles O27: PADW keeps the invariant, which says the mode by the byte just stored. -/
theorem modeFollowsTheLastWrittenBit : Obligations.ModeFollowsTheLastWrittenBit := by
  intro v s t inv h
  rw [exec_padw_eq] at h
  cases h
  have inv' := padAfterWrite_inv inv v
  refine ⟨?mode, fun ho hn => ?cursor, inv'⟩
  case mode =>
    have iff := inv'.latching_iff
    rw [padAfterWrite_ctrl] at iff
    exact iff
  case cursor =>
    show (padAfterWrite s.pad v).cursor = 0
    rw [padAfterWrite_rising ho hn]
    exact cursor_eq_zero_of_strobe_clear (q := s.pad) inv ho

/-! ## REARM and LATCH -/

/-- Bits 1, 0: whatever the device held, the second write is a falling edge. -/
theorem execAll_latch {a b : Byte} (ha : strobe a = true) (hb : strobe b = false) (s : State) :
    execAll [.padw a, .padw b] s = .next { s with pad := { ctrl := b, mode := .latching, cursor := 0 } } := by
  rw [execAll_cons_next (exec_padw_eq a s), execAll_cons_next (exec_padw_eq b _), execAll_nil,
    padAfterWrite_falling (by rw [padAfterWrite_ctrl, ha]) hb]

/-- Bits 1, 0, 1: the third write is a rising edge, which leaves the cursor. -/
theorem execAll_rearm {a b c : Byte} (ha : strobe a = true) (hb : strobe b = false) (hc : strobe c = true) (s : State) :
    execAll [.padw a, .padw b, .padw c] s = .next { s with pad := { ctrl := c, mode := .shifting, cursor := 0 } } := by
  show execAll ([.padw a, .padw b] ++ [.padw c]) s = _
  rw [execAll_append_next (execAll_latch ha hb s), execAll_cons_next (exec_padw_eq c _), execAll_nil,
    padAfterWrite_rising hb hc]

/-- Settles O28: the script lines are those writes where the addresses are distinct. -/
theorem rearmAndLatchWorkFromAnyState : Obligations.RearmAndLatchWorkFromAnyState := by
  intro a b c s ha hb hc
  refine ⟨execAll_latch ha hb s, execAll_rearm ha hb hc s, fun ⟨ho, _, _⟩ => ⟨?latch, ?rearm⟩⟩
  case latch =>
    simp only [execLines, lineOps, pseudoLines, lineRecord, List.map, select_bw_pad1 ho]
    exact execAll_latch rfl rfl s
  case rearm =>
    simp only [execLines, lineOps, pseudoLines, lineRecord, List.map, select_bw_pad1 ho]
    exact execAll_rearm rfl rfl rfl s

/-! ## Reads while the buttons change -/

/-- Settles O29: the read after a SETBTN returns the mask's bit at the cursor, by induction on the masks. -/
theorem shiftingReadsSampleLive : Obligations.ShiftingReadsSampleLive := by
  intro ms
  induction ms with
  | nil => exact fun s _ _ => ⟨s, rfl, by simp⟩
  | cons m ms ih =>
    intro s hm hc
    rw [List.length_cons] at hc
    have room : s.pad.cursor < 8 := by omega
    have read : exec .padr { s with btn := buttonsOfMask m } = _ :=
      exec_padr_shifting hm (readOrder_buttonsOfMask_getElem? m room)
    obtain ⟨t, ht, pad, returned⟩ := ih
      { s with
        pad := { s.pad with cursor := s.pad.cursor + 1 }
        btn := buttonsOfMask m
        returned := s.returned ++ [.busData (bitByte (m.getLsbD s.pad.cursor))] }
      hm (by show s.pad.cursor + 1 + _ ≤ 8; omega)
    refine ⟨t, ?_, ?_, ?_⟩
    · rw [List.flatMap_cons, List.cons_append, List.cons_append, List.nil_append,
        execAll_cons_next (exec_setbtn_eq m s), execAll_cons_next read, ht]
    · simp [pad]; omega
    · simp [returned]

/-- Settles O30: the read after a SETBTN returns the mask's bit 0, by induction on the masks. -/
theorem latchingReadsTrackButtonA : Obligations.LatchingReadsTrackButtonA := by
  intro ms
  induction ms with
  | nil => exact fun s _ => ⟨s, rfl, by simp⟩
  | cons m ms ih =>
    intro s hm
    have read : exec .padr { s with btn := buttonsOfMask m } = _ := exec_padr_latching hm
    obtain ⟨t, ht, pad, returned⟩ := ih
      { s with
        btn := buttonsOfMask m
        returned := s.returned ++ [.busData (bitByte (m.getLsbD 0))] } hm
    refine ⟨t, ?_, pad, ?_⟩
    · rw [List.flatMap_cons, List.cons_append, List.cons_append, List.nil_append,
        execAll_cons_next (exec_setbtn_eq m s), execAll_cons_next read]
      exact ht
    · simp [returned]

/-! ## Reads once exhausted -/

/-- With the cursor exhausted only a PADW moves the device, and only a PADR returns a bus byte, which is 0x01. -/
theorem exec_of_exhausted {i : Instr} {s t : State} (hm : s.pad.mode = .shifting) (hc : s.pad.cursor = 8)
    (hi : ∀ v, i ≠ .padw v) (h : exec i s = .next t) :
    t.pad = s.pad ∧ ∃ vs, t.returned = s.returned ++ vs ∧
      vs.filterMap busByte = List.replicate (if i == .padr then 1 else 0) 0x01 := by
  rcases exec_next h with ⟨_, rfl, rfl⟩ | ⟨v, rfl, -⟩ | ⟨rfl, -⟩ | ⟨_, rfl, rfl⟩ | ⟨q, rfl, rfl⟩ | ⟨_, rfl, rfl⟩
  case inr.inl => exact absurd rfl (hi v)
  case inr.inr.inl =>
    rw [exec_padr_exhausted hm (Nat.le_of_eq hc.symm)] at h
    cases h
    exact ⟨rfl, _, rfl, rfl⟩
  case inr.inr.inr.inr.inl => exact ⟨rfl, _, rfl, rfl⟩
  all_goals exact ⟨rfl, [], (List.append_nil _).symm, rfl⟩

/-- Settles O31: `exec_of_exhausted` along the sequence. -/
theorem exhaustedReadsReturnOne : Obligations.ExhaustedReadsReturnOne := by
  intro is
  induction is with
  | nil =>
    intro s t _ _ _ h
    cases h
    exact ⟨rfl, [], by simp⟩
  | cons i is ih =>
    intro s t hm hc hi h
    obtain ⟨u, hu, ht⟩ := execAll_cons_inv h
    obtain ⟨head, tail⟩ := List.forall_mem_cons.1 hi
    obtain ⟨pad, vs, returned, bytes⟩ := exec_of_exhausted hm hc head hu
    obtain ⟨pad', vs', returned', bytes'⟩ := ih u t (pad ▸ hm) (pad ▸ hc) tail ht
    refine ⟨pad'.trans pad, vs ++ vs', by rw [returned', returned, List.append_assoc], ?_⟩
    rw [List.filterMap_append, bytes, bytes', List.count_cons, Nat.add_comm, List.replicate_add]

/-! ## DMA and PRESS -/

theorem pressed_buttonsOfMask_or (m n : Byte) (x : Button) :
    pressed (buttonsOfMask (m ||| n)) x = (pressed (buttonsOfMask m) x || pressed (buttonsOfMask n) x) := by
  cases x <;> simp [pressed, buttonsOfMask]

theorem pressed_buttonBit (x y : Button) : pressed (buttonsOfMask (buttonBit y)) x = true ↔ x = y := by
  cases y <;> cases x <;> decide

theorem pressed_pressMask_iff (held : List Button) (x : Button) :
    pressed (buttonsOfMask (pressMask held)) x = true ↔ x ∈ held := by
  induction held with
  | nil => cases x <;> simp [pressed, buttonsOfMask, pressMask]
  | cons y held ih => rw [pressMask, pressed_buttonsOfMask_or, Bool.or_eq_true, pressed_buttonBit, ih, List.mem_cons]

/-- Settles O42: DMA is a transfer and the DRAIN after it, PRESS one SETBTN. -/
theorem dmaAndPressPseudoOperations : Obligations.DmaAndPressPseudoOperations := by
  intro s _
  refine ⟨fun page parity => ?dma, fun held => ?press⟩
  case dma =>
    simp only [execLines, lineOps, pseudoLines, lineRecord, List.map, select_bw_oamdma]
    rw [Nat.add_comm (513 + parity % 2)]
    exact ⟨_, execAll_oamdma_drain page parity s, rfl, rfl⟩
  case press => exact ⟨_, execAll_cons_next (exec_setbtn_eq (pressMask held) s), rfl, pressed_pressMask_iff held⟩

end Sys2Proof.Proofs
end

section
/-! SUPPORT. The statements that compare two runs (41_controller.md R81, R82, 00_scope.md R2): a change of the Controller Device
that every operation carries along is carried along by every sequence; and the two components do not meet. -/

namespace Sys2Proof.Proofs

open Sys2Proof.Machine Sys2Proof.Statements

/-! ## Outcomes under a change of the state -/

/-- An outcome with the state in it changed by `f`: the next state, or the one the fault leaves. -/
def mapOutcome (f : State → State) : Host.Outcome State Fault Refusal → Host.Outcome State Fault Refusal
  | .next t => .next (f t)
  | .fault (.unsupportedAddress info left) => .fault (.unsupportedAddress info (f left))
  | .refused r => .refused r

@[simp] theorem mapOutcome_next (f : State → State) (t : State) : mapOutcome f (.next t) = .next (f t) := rfl

@[simp] theorem mapOutcome_fault (f : State → State) (info : BusAccess) (left : State) :
    mapOutcome f (.fault (.unsupportedAddress info left)) = .fault (.unsupportedAddress info (f left)) := rfl

@[simp] theorem mapOutcome_refused (f : State → State) (r : Refusal) : mapOutcome f (.refused r) = .refused r := rfl

/-- The state with its Controller Device changed by `g`. -/
def onPad (g : Pad → Pad) (s : State) : State := { s with pad := g s.pad }

/-- Raising the fault does not look at the device. -/
theorem raiseUnsupported_onPad (g : Pad → Pad) (rw_ : Rw) (addr : Addr) (s : State) :
    raiseUnsupported rw_ addr (onPad g s) = mapOutcome (onPad g) (raiseUnsupported rw_ addr s) := by
  rw [raiseUnsupported_eq, raiseUnsupported_eq]
  rfl

/-- PADW and PADR apart, no operation looks at the device. -/
theorem exec_onPad (g : Pad → Pad) {i : Instr} (hw : ∀ v, i ≠ .padw v) (hr : i ≠ .padr) (s : State) :
    exec i (onPad g s) = mapOutcome (onPad g) (exec i s) := by
  cases i with
  | oamdma page => rw [exec_oamdma_eq, exec_oamdma_eq]; rfl
  | padw v => exact absurd rfl (hw v)
  | buswUnsup addr data => exact raiseUnsupported_onPad g .write addr s
  | padr => exact absurd rfl hr
  | pad2r => exact raiseUnsupported_onPad g .read s.addrs.pad2 s
  | busrUnsup addr => exact raiseUnsupported_onPad g .read addr s
  | addaud cycles => rfl
  | drain parity => rfl
  | setbtn mask => rfl

/-- No operation is refused: each has a meaning. -/
theorem exec_ne_refused (i : Instr) (s : State) (r : Refusal) : exec i s ≠ .refused r := by
  by_cases hi : IsFaultOp i
  · obtain ⟨f, h⟩ := exec_fault_of_isFaultOp hi s
    simp [h]
  · obtain ⟨t, h⟩ := exec_next_of_not_isFaultOp hi s
    simp [h]

theorem execAll_ne_refused (is : List Instr) (s : State) (r : Refusal) : execAll is s ≠ .refused r := by
  induction is generalizing s with
  | nil => simp
  | cons i is ih =>
    cases h : exec i s with
    | next t => rw [execAll_cons_next h]; exact ih t
    | fault f => simp [execAll, h]
    | refused r' => exact absurd h (exec_ne_refused i s r')

/-! ## The machine whose cursor grows without bound (41_controller.md R81) -/

/-- On every operation but PADR the other machine is this one. -/
theorem execUnbounded_of_ne_padr {i : Instr} (hi : i ≠ .padr) (s : State) : execUnbounded i s = exec i s := by
  cases i with
  | padr => exact absurd rfl hi
  | _ => rfl

/-- The device with its cursor cut at 8: `saturate` is this change of the state. -/
def cutCursor (q : Pad) : Pad := { q with cursor := min q.cursor 8 }

theorem saturate_eq_onPad : saturate = onPad cutCursor := rfl

/-- A write clears the cursor or leaves it. -/
theorem padAfterWrite_cutCursor (q : Pad) (v : Byte) : padAfterWrite (cutCursor q) v = cutCursor (padAfterWrite q v) := by
  rcases padAfterWrite_cases q v with ⟨ho, hn, e⟩ | ⟨ho, hn, e⟩ | ⟨h, e⟩ <;> rw [e]
  · exact padAfterWrite_falling ho hn
  · exact padAfterWrite_rising ho hn
  · exact padAfterWrite_unchanged h

/-- A read past the last button returns 0x01 on both machines; before it, the cursors agree. -/
theorem exec_padr_saturate (s : State) : exec .padr (saturate s) = mapOutcome saturate (execUnbounded .padr s) := by
  cases hm : s.pad.mode with
  | latching =>
    have same : execUnbounded .padr s = exec .padr s := by simp [execUnbounded, hm]
    rw [same, exec_padr_latching hm, exec_padr_latching (s := saturate s) hm]
    rfl
  | shifting =>
    by_cases hc : s.pad.cursor < 8
    · have at_button := List.getElem?_eq_getElem (l := readOrder s.btn) hc
      have cut : (saturate s).pad.cursor = s.pad.cursor := Nat.min_eq_left (Nat.le_of_lt hc)
      have cut_next : min (s.pad.cursor + 1) 8 = s.pad.cursor + 1 := Nat.min_eq_left hc
      rw [exec_padr_shifting (s := saturate s) hm (by rw [cut]; exact at_button), cut]
      simp [execUnbounded, hm, at_button, saturate, cut_next]
    · have past : (readOrder s.btn)[s.pad.cursor]? = none := List.getElem?_eq_none (Nat.le_of_not_lt hc)
      have cut : (saturate s).pad.cursor = 8 := Nat.min_eq_right (Nat.le_of_not_lt hc)
      have cut_next : min (s.pad.cursor + 1) 8 = min s.pad.cursor 8 := by omega
      rw [exec_padr_exhausted (s := saturate s) hm (Nat.le_of_eq cut.symm)]
      simp [execUnbounded, hm, past, saturate, cut_next]

theorem exec_saturate (i : Instr) (s : State) : exec i (saturate s) = mapOutcome saturate (execUnbounded i s) := by
  cases i with
  | padr => exact exec_padr_saturate s
  | padw v =>
    have pad : padAfterWrite (saturate s).pad v = cutCursor (padAfterWrite s.pad v) := padAfterWrite_cutCursor s.pad v
    rw [execUnbounded_of_ne_padr (by simp), exec_padw_eq, exec_padw_eq, pad]
    rfl
  | _ => rw [saturate_eq_onPad, execUnbounded_of_ne_padr (by simp)]; exact exec_onPad cutCursor (by simp) (by simp) s

theorem execAll_saturate (is : List Instr) (s : State) :
    execAll is (saturate s) = mapOutcome saturate (execAllUnbounded is s) := by
  induction is generalizing s with
  | nil => rfl
  | cons i is ih =>
    have step := exec_saturate i s
    rw [execAll, execAllUnbounded, step]
    cases execUnbounded i s with
    | next t => exact ih t
    | fault f => cases f; rfl
    | refused r => rfl

/-- Settles O32: the simulation along the sequence; neither machine refuses. -/
theorem saturationIsUnobservable : Obligations.SaturationIsUnobservable := by
  intro is u
  have sim := execAll_saturate is u
  cases h : execAllUnbounded is u with
  | next v => rw [h] at sim; exact sim
  | fault f => rw [h] at sim; cases f; exact sim
  | refused r => rw [h] at sim; exact execAll_ne_refused is (saturate u) r sim

/-! ## Bits 7:1 of the control byte (41_controller.md R82) -/

/-- The device with bits 7:1 of its control byte erased: `eraseState` is this change of the state. -/
def eraseCtrl (q : Pad) : Pad := { q with ctrl := q.ctrl &&& 0x01 }

theorem eraseState_eq_onPad : eraseState = onPad eraseCtrl := rfl

theorem strobe_and_one (v : Byte) : strobe (v &&& 0x01) = strobe v := by
  simp [strobe]

/-- A write looks at bit 0 of the stored and of the written byte only. -/
theorem padAfterWrite_eraseCtrl (q : Pad) (v : Byte) :
    padAfterWrite (eraseCtrl q) (v &&& 0x01) = eraseCtrl (padAfterWrite q v) := by
  have old : strobe (eraseCtrl q).ctrl = strobe q.ctrl := strobe_and_one q.ctrl
  have new := strobe_and_one v
  rcases padAfterWrite_cases q v with ⟨ho, hn, e⟩ | ⟨ho, hn, e⟩ | ⟨h, e⟩ <;> rw [e]
  · exact padAfterWrite_falling (old.trans ho) (new.trans hn)
  · exact padAfterWrite_rising (old.trans ho) (new.trans hn)
  · exact padAfterWrite_unchanged (old.trans (h.trans new.symm))

/-- A read does not look at the control byte. -/
theorem padAfterRead_eraseCtrl (q : Pad) : padAfterRead (eraseCtrl q) = eraseCtrl (padAfterRead q) := by
  obtain ⟨ctrl, mode, cursor⟩ := q
  cases mode with
  | latching => rfl
  | shifting => by_cases hc : cursor < 8 <;> simp [padAfterRead, eraseCtrl, Config.cursorMax, hc]

theorem exec_erase (i : Instr) (s : State) : exec (eraseInstr i) (eraseState s) = mapOutcome eraseState (exec i s) := by
  cases i with
  | padr =>
    have pad : padAfterRead (eraseState s).pad = eraseCtrl (padAfterRead s.pad) := padAfterRead_eraseCtrl s.pad
    show exec .padr (eraseState s) = _
    rw [exec_padr_eq, exec_padr_eq, pad]
    rfl
  | padw v =>
    have pad : padAfterWrite (eraseState s).pad (v &&& 0x01) = eraseCtrl (padAfterWrite s.pad v) :=
      padAfterWrite_eraseCtrl s.pad v
    show exec (.padw (v &&& 0x01)) (eraseState s) = _
    rw [exec_padw_eq, exec_padw_eq, pad]
    rfl
  | _ => rw [eraseState_eq_onPad]; exact exec_onPad eraseCtrl (by simp [eraseInstr]) (by simp [eraseInstr]) s

theorem execAll_erase (is : List Instr) (s : State) :
    execAll (is.map eraseInstr) (eraseState s) = mapOutcome eraseState (execAll is s) := by
  induction is generalizing s with
  | nil => rfl
  | cons i is ih =>
    rw [List.map_cons, execAll, execAll, exec_erase]
    cases exec i s with
    | next t => exact ih t
    | fault f => cases f; rfl
    | refused r => rfl

/-- Settles O33: the two runs have one and the same erased run. -/
theorem controlBitsSevenToOneAreUnobservable : Obligations.ControlBitsSevenToOneAreUnobservable := by
  intro is js s u hi hs
  have same : mapOutcome eraseState (execAll is s) = mapOutcome eraseState (execAll js u) := by
    rw [← execAll_erase, ← execAll_erase, hi, hs]
  cases ha : execAll is s with
  | next t =>
    cases hb : execAll js u with
    | next v =>
      have erased : eraseState t = eraseState v := by simpa [ha, hb] using same
      exact ⟨erased, (congrArg State.returned erased : (eraseState t).returned = (eraseState v).returned)⟩
    | fault f => cases f; simp [ha, hb] at same
    | refused r => exact execAll_ne_refused js u r hb
  | fault f =>
    cases f with
    | unsupportedAddress x l =>
    cases hb : execAll js u with
    | next v => simp [ha, hb] at same
    | fault f =>
      cases f
      simpa [ha, hb] using same
    | refused r => exact execAll_ne_refused js u r hb
  | refused r => exact execAll_ne_refused is s r ha

/-! ## The two components (00_scope.md R2) -/

/-- Settles O41: no closed form of an operation of one component names the other's state. -/
theorem componentsAreIndependent : Obligations.ComponentsAreIndependent := by
  intro i s
  refine ⟨fun hi => ?dma, fun hi => ?pad, fun hi => ?pad2r⟩
  case dma =>
    rcases hi with ⟨page, rfl⟩ | ⟨c, rfl⟩ | ⟨q, rfl⟩
    · exact ⟨_, exec_oamdma_eq page s, rfl, rfl, fun _ _ => exec_oamdma_eq page _⟩
    · exact ⟨_, exec_addaud_eq c s, rfl, rfl, fun _ _ => exec_addaud_eq c _⟩
    · exact ⟨_, exec_drain_eq q s, rfl, rfl, fun _ _ => exec_drain_eq q _⟩
  case pad =>
    rcases hi with ⟨v, rfl⟩ | rfl | ⟨m, rfl⟩
    · exact ⟨_, exec_padw_eq v s, rfl, fun _ => exec_padw_eq v _⟩
    · exact ⟨_, exec_padr_eq s, rfl, fun _ => exec_padr_eq _⟩
    · exact ⟨_, exec_setbtn_eq m s, rfl, fun _ => exec_setbtn_eq m _⟩
  case pad2r =>
    subst hi
    exact ⟨_, _, (exec_pad2r_eq s).trans (raiseUnsupported_eq _ _ s), rfl,
      fun _ => (exec_pad2r_eq _).trans (raiseUnsupported_eq _ _ _)⟩

end Sys2Proof.Proofs
end
